-- ==== Sys2Proof/Word.lean ====
section
/-!
DEFINITION. The widths of this hardware's values (R5, R61) and their plainest arithmetic.
Every value is unsigned (R7): nothing in this hardware is sign-extended.
-/

namespace Sys2Proof

/-- An 8-bit value: a memory cell, a general register, a timer, an immediate `kk`. -/
abbrev Byte := BitVec 8

/-- A 16-bit value: `I`, `pc`, a stack entry, an opcode, the key snapshot. -/
abbrev Word := BitVec 16

/-- A 4-bit value: one nibble of an opcode, a register index `x` or `y`, a height `n`. -/
abbrev Nibble := BitVec 4

/-- A 12-bit value: the address field `nnn`. -/
abbrev Addr12 := BitVec 12

/-- The framebuffer, 32 rows of 64 one-bit pixels (R19). -/
abbrev Screen := Vector (Vector Bool 64) 32

/-- The configuration parameter FONT[0..79] (R47). -/
abbrev Font := Vector Byte 80

/-- A register index is below the number of registers, and a glyph or key number below 16. -/
theorem Nibble.toNat_lt_sixteen (x : Nibble) : x.toNat < 16 := x.isLt

/-- `zext_16` of R8. -/
abbrev zext16 {w : Nat} (v : BitVec w) : Word := v.setWidth 16

end Sys2Proof
end

