-- ==== Sys2Proof/Config.lean ====
section
/-!
DEFINITION. What is fixed for the machine (R5, R6), the default of the parameter FONT (R47), and the
two inputs of a cycle that no rule constrains (R31, R32), which are free values.
-/

namespace Sys2Proof

/-- MEM_SIZE (R5): the number of memory cells, addresses 0x000 to 0xFFF. -/
abbrev Config.memSize : Nat := 4096

/-- STACK_DEPTH (R5). -/
abbrev Config.stackDepth : Nat := 16

/-- FONT_BASE (R5): the first address of the font table. -/
abbrev Config.fontBase : Nat := 0x050

/-- GLYPH_LEN (R5): the bytes of one glyph. -/
abbrev Config.glyphLen : Nat := 5

/-- ROM_BASE (R5): the first address of the ROM image. -/
abbrev Config.romBase : Nat := 0x200

/-- ROM_MAX (R5): the largest ROM length in bytes. -/
abbrev Config.romMax : Nat := 3584

/-- ENTRY_PC (R6, R25). -/
abbrev Config.entryPc : Word := 0x200#16

/-- The default of the parameter FONT (R47): the sixteen hexadecimal glyphs, five rows each.
PRESUMED by the spec (GK5); safe, since boot takes the font as an argument (notes/assumptions/5.md). -/
def Config.defaultFont : Font := #v[
  0xF0, 0x90, 0x90, 0x90, 0xF0,
  0x20, 0x60, 0x20, 0x20, 0x70,
  0xF0, 0x10, 0xF0, 0x80, 0xF0,
  0xF0, 0x10, 0xF0, 0x10, 0xF0,
  0x90, 0x90, 0xF0, 0x10, 0x10,
  0xF0, 0x80, 0xF0, 0x10, 0xF0,
  0xF0, 0x80, 0xF0, 0x90, 0xF0,
  0xF0, 0x10, 0x20, 0x40, 0x40,
  0xF0, 0x90, 0xF0, 0x90, 0xF0,
  0xF0, 0x90, 0xF0, 0x10, 0xF0,
  0xF0, 0x90, 0xF0, 0x90, 0x90,
  0xE0, 0x90, 0xE0, 0x90, 0xE0,
  0xF0, 0x80, 0x80, 0x80, 0xF0,
  0xE0, 0x90, 0x90, 0x90, 0xE0,
  0xF0, 0x80, 0xF0, 0x80, 0xF0,
  0xF0, 0x80, 0xF0, 0x80, 0x80]

/-- The key snapshot the host supplies with its n-th request (R31, D25).
A free value, DESIGN CHOICE, safe (notes/assumptions/1.md): it has no body, so no proof sees a value of it. -/
opaque Config.keysInput : Nat → Word

/-- The random byte the host supplies with its n-th request (R32, R131, D24).
A free value, DESIGN CHOICE, safe (notes/assumptions/1.md): it has no body, so no proof sees a value of it. -/
opaque Config.rndInput : Nat → Byte

end Sys2Proof
end

