-- ==== Sys2Proof/Machine/State.lean ====
section
/-!
DEFINITION. The machine's state (10_state.md), its faults and the state after reset (R25).
State is plain data: everything the spec gives the machine, and the values standing on the two
per-cycle input ports (R31, R32), which are the model's own fields.
-/

namespace Sys2Proof.Machine

/-- The two operational states of the engine (R21, R90). -/
inductive Mode where
  /-- The default: one decoded instruction per cycle. -/
  | running
  /-- The last cycle executed `LD Vx,K` and found no key pressed. -/
  | awaitingKey
deriving DecidableEq, Repr

/-- The fault causes of R190, whose codes the fault latch FLT holds.
Every one of them is taken as the spec describes it (R193): the cause is latched in the field `flt` of
the NEXT state, so no step answers with the outcome `fault` (notes/assumptions/3.md). -/
inductive Fault where
  /-- Code 1, raised by the fetch of a cycle that begins with pc > 0xFFE (R194).
  Safe: the original program's behaviour there is undefined and the spec stops it. -/
  | pcBounds
  /-- Code 2, raised by RET when SP = 0 (R195). Safe, as above. -/
  | stackUnderflow
  /-- Code 3, raised by CALL when SP = 16 (R196). Safe, as above. -/
  | stackOverflow
  /-- Code 4, raised by DRW, `LD B,Vx`, `LD [I],Vx` and `LD Vx,[I]` when an address they would touch
  exceeds 0xFFF (R197). Safe, as above. -/
  | memBounds
  /-- Code 5, raised by boot when the ROM is longer than 3584 bytes (R198). Safe, as above. -/
  | romTooLarge
deriving DecidableEq, Repr

/-- Why an instruction has no meaning in the model. No arm of `exec` answers with it: every row of the
opcode table is modelled. -/
inductive Refusal where
  /-- The instruction with this mnemonic has no meaning yet; raised by an arm of `exec` that has not
  been given one (there is none). Safe. -/
  | notModelled (mnemonic : String)
deriving DecidableEq, Repr

/-- Every state element of 10_state.md, under its spec name in lower case, and the model's input ports. -/
structure State where
  /-- The general registers V0 to VF (R10); VF is `v[15]` (R12). -/
  v : Vector Byte 16
  /-- The index register I (R13). -/
  i : Word
  /-- The program counter (R14). -/
  pc : Word
  /-- The stack pointer SP, the number of active calls, 0 to 16 (R17). -/
  sp : Fin 17
  /-- The call stack, STACK[0] to STACK[15] (R16). -/
  stack : Vector Word 16
  /-- The delay timer DT (R18). -/
  dt : Byte
  /-- The sound timer ST (R18). -/
  st : Byte
  /-- The framebuffer FB (R19): `fb[r][c]` is the pixel at row r, column c. -/
  fb : Screen
  /-- The keypad latch K (R20): bit k is flag K[k]. -/
  k : Word
  /-- The engine mode MODE (R21). -/
  mode : Mode
  /-- The fault latch FLT (R22): `none` is None. -/
  flt : Option Fault
  /-- The memory MEM (R23): the listed cells in rising order of address; an unlisted cell holds 0. -/
  mem : List Host.Cell
  /-- The value on the port `keys` (R31) for the next cycle; the model's own field (notes/assumptions/1.md). -/
  keysIn : Word
  /-- The value on the port `rnd` (R32) for the next cycle; the model's own field (notes/assumptions/1.md). -/
  rndIn : Byte
  /-- Which pair of input values stands on the ports; the model's own field (notes/assumptions/1.md). -/
  inputIdx : Nat
deriving DecidableEq, Repr

/-- The state right after `reset` (R25, R220), before boot. The stack entries, which R25 leaves
unspecified, are 0 (DESIGN CHOICE, unsafe, notes/assumptions/2.md); the input ports carry free values. -/
def State.reset : State where
  v := Vector.replicate 16 0
  i := 0
  pc := Config.entryPc
  sp := 0
  stack := Vector.replicate 16 0
  dt := 0
  st := 0
  fb := Vector.replicate 32 (Vector.replicate 64 false)
  k := 0
  mode := .running
  flt := none
  mem := []
  keysIn := Config.keysInput 0
  rndIn := Config.rndInput 0
  inputIdx := 0

end Sys2Proof.Machine
end

