-- ==== Sys2Proof/Machine/Memory.lean ====
section
/-!
DEFINITION. The memory MEM (R23, R40) as a list of cells in one canonical form, with the byte
operations every access is made of (R8, R42, R45).
-/

namespace Sys2Proof.Machine

/-- What an unlisted cell holds: its reset content (R25). -/
def unlistedByte : Byte := 0

/-- The canonical form: addresses strictly rising and inside memory, no cell equal to what an unlisted
one holds. -/
abbrev Memory.wf (m : List Host.Cell) : Prop :=
  m.Pairwise (fun c d => c.1 < d.1) ∧ ∀ c ∈ m, c.1 < Config.memSize ∧ c.2 ≠ unlistedByte

/-- The byte at an address: "a read returns the last value written" (R45). -/
def Memory.read : List Host.Cell → Nat → Byte
  | [], _ => unlistedByte
  | (a, b) :: m, addr => if a = addr then b else Memory.read m addr

/-- List a cell unless its value is what an unlisted cell holds. -/
def Memory.consCell (a : Nat) (b : Byte) (m : List Host.Cell) : List Host.Cell :=
  if b = unlistedByte then m else (a, b) :: m

/-- Store one byte, keeping the canonical form. -/
def Memory.write : List Host.Cell → Nat → Byte → List Host.Cell
  | [], addr, val => Memory.consCell addr val []
  | (a, b) :: m, addr, val =>
    if addr < a then Memory.consCell addr val ((a, b) :: m)
    else if addr = a then Memory.consCell addr val m
    else (a, b) :: Memory.write m addr val

/-- The bytes at `len` ascending addresses from `base` (R42). -/
def Memory.readBytes (m : List Host.Cell) (base : Nat) : Nat → List Byte
  | 0 => []
  | len + 1 => Memory.read m base :: Memory.readBytes m (base + 1) len

/-- Store bytes at ascending addresses from `base` (R42). -/
def Memory.writeBytes (m : List Host.Cell) (base : Nat) : List Byte → List Host.Cell
  | [] => m
  | b :: bs => Memory.writeBytes (Memory.write m base b) (base + 1) bs

/-- Whether `len` bytes from `base` all lie in memory: the sums are unbounded integers, and an access
to no byte is always in bounds (R43). -/
def inMemory (base len : Nat) : Bool := len == 0 || base + len ≤ Config.memSize

end Sys2Proof.Machine
end

