-- ==== Sys2Proof/Machine/Ops.lean ====
section
/-!
DEFINITION. The named operations over the state that the meanings are written with: register and
program-counter access, the call stack, bounded block accesses to memory, pixels, and raising a fault.
-/

namespace Sys2Proof.Machine

/-- `V[x]` (R8, R10). -/
def State.reg (s : State) (x : Nibble) : Byte := s.v[x.toNat]'(x.toNat_lt_sixteen)

/-- `V[x] <- a` (R8, R10). -/
def State.setReg (s : State) (x : Nibble) (a : Byte) : State :=
  { s with v := s.v.set x.toNat a x.toNat_lt_sixteen }

/-- The index of VF (R12). -/
abbrev flagReg : Nibble := 0xF#4

/-- The registers V[0..x] as bytes in ascending order (R144). -/
def State.regsUpTo (s : State) (x : Nibble) : List Byte := s.v.toList.take (x.toNat + 1)

/-- Register j takes byte j of the list, for every j the list has (R145). -/
def State.setRegsFrom0 (s : State) (bs : List Byte) : State :=
  { s with v := s.v.mapFinIdx fun j old _ => bs.getD j old }

/-- RAISING A FAULT (R193): FLT takes the cause and every other state element keeps its value. There is
no vector, no saved register and no mode change, and no instruction returns from a fault (R202). -/
def State.raise (s : State) (f : Fault) : State := { s with flt := some f }

/-- pc moves on by a number of bytes (R87). -/
def State.advance (s : State) (bytes : Word) : State := { s with pc := s.pc + bytes }

/-- `pc <- target` (R87). -/
def State.jump (s : State) (target : Word) : State := { s with pc := target }

/-- The general rule of R87: `pc <- pc + 2`. -/
def State.nextInstr (s : State) : State := s.advance 2

/-- A skip (R87): `pc <- pc + 4` if the condition holds, else `pc <- pc + 2`. -/
def State.skipIf (s : State) (cond : Bool) : State := s.advance (if cond then 4 else 2)

/-- Push the pc on the call stack: write the slot SP names, then increment SP; none when full (R102, R17). -/
def State.pushPc (s : State) : Option State :=
  if h : s.sp.val < Config.stackDepth then
    some { s with stack := s.stack.set s.sp.val s.pc h, sp := ⟨s.sp.val + 1, Nat.succ_lt_succ h⟩ }
  else none

/-- Decrement SP and read the entry it then names; none when empty (R101, R17). -/
def State.popEntry (s : State) : Option (Word × State) :=
  if h : s.sp.val = 0 then none
  else some (s.stack[s.sp.val - 1]'(by omega), { s with sp := ⟨s.sp.val - 1, by omega⟩ })

/-- `len` bytes of data from address `base`, or none when one of them lies outside memory (R43). -/
def State.loadBytes (s : State) (base len : Nat) : Option (List Byte) :=
  if inMemory base len then some (Memory.readBytes s.mem base len) else none

/-- Store bytes from address `base` on, or none, with nothing stored, when one of them lies outside
memory (R43). -/
def State.storeBytes (s : State) (base : Nat) (bs : List Byte) : Option State :=
  if inMemory base bs.length then some { s with mem := Memory.writeBytes s.mem base bs } else none

/-- Finish an instruction whose access was in bounds, or raise the fault in the state it began in (R91). -/
def State.orRaise (s : State) (f : Fault) (r : Option State) : Host.Outcome State Fault Refusal :=
  match r with
  | some t => .next t
  | none => .next (s.raise f)

/-- `FB[r][c]` (R8, R19). -/
def pixel (fb : Screen) (r : Fin 32) (c : Fin 64) : Bool := (fb[r])[c]

/-- `FB[r][c] <- FB[r][c] XOR 1` (R161). -/
def togglePixel (fb : Screen) (r : Fin 32) (c : Fin 64) : Screen :=
  fb.set r ((fb[r]).set c (!pixel fb r c))

/-- The blank framebuffer (R160). -/
def blankScreen : Screen := Vector.replicate 32 (Vector.replicate 64 false)

/-- The framebuffer row `(b + r) mod 32` of sprite row r (R164). -/
def spriteRow (b : Byte) (r : Nat) : Fin 32 := Fin.ofNat 32 (b.toNat + r)

/-- The framebuffer column `(a + k) mod 64` of sprite column k (R164). -/
def spriteCol (a : Byte) (k : Nat) : Fin 64 := Fin.ofNat 64 (a.toNat + k)

/-- XOR one sprite row into framebuffer row `row` with its left edge at `a`: sprite column k is bit 7 - k,
and a 0 bit leaves its pixel untouched (R161, R163, R165). -/
def drawRow (fb : Screen) (row : Fin 32) (a : Byte) (bits : Byte) : Screen :=
  (List.range 8).foldl
    (fun f k => if bits.getLsbD (7 - k) then togglePixel f row (spriteCol a k) else f) fb

/-- XOR sprite rows `r`, `r + 1`, ... into the framebuffer (R161). -/
def drawRows (fb : Screen) (a b : Byte) (r : Nat) : List Byte → Screen
  | [] => fb
  | bits :: rest => drawRows (drawRow fb (spriteRow b r) a bits) a b (r + 1) rest

end Sys2Proof.Machine
end

