-- ==== Sys2Proof/Machine/Boot.lean ====
section
/-!
DEFINITION. What the host does to the core beside requesting cycles: boot (R221 to R223) and presenting
inputs (R30 to R32); and what it reads from it, the output ports (R34 to R36).
-/

namespace Sys2Proof.Machine

/-- `boot(rom)` with the font given (R221): the font to 0x050 and the ROM to 0x200, or, for a ROM that
does not fit, nothing but FLT := RomTooLarge (R223). -/
def State.bootWith (s : State) (font : Font) (rom : List Byte) : State :=
  if rom.length > Config.romMax then s.raise .romTooLarge
  else
    { s with
      mem := Memory.writeBytes (Memory.writeBytes s.mem Config.fontBase font.toList) Config.romBase rom }

/-- `boot(rom)` with the default font (R47). -/
def State.boot (s : State) (rom : List Byte) : State := s.bootWith Config.defaultFont rom

/-- The state in which the host's next request is `step(keys, rnd)` (R30). -/
def State.withInputs (s : State) (keys : Word) (rnd : Byte) : State :=
  { s with keysIn := keys, rndIn := rnd }

/-- Port `fb`: the 2048 bits of the framebuffer, flat index r × 64 + c (R34, R166). -/
def State.fbPort (s : State) (n : Fin 2048) : Bool :=
  pixel s.fb ⟨n.val / 64, by omega⟩ ⟨n.val % 64, by omega⟩

/-- Port `st_out` (R35). -/
def State.stOut (s : State) : Byte := s.st

/-- The code of a fault (R190). -/
def faultCode : Option Fault → Nat
  | none => 0
  | some .pcBounds => 1
  | some .stackUnderflow => 2
  | some .stackOverflow => 3
  | some .memBounds => 4
  | some .romTooLarge => 5

/-- Port `fault` (R36): the value of FLT as its code. -/
def State.faultPort (s : State) : Nat := faultCode s.flt

/-- Port `waiting` (R36): 1 when MODE is AwaitingKey. -/
def State.waitingPort (s : State) : Bool := s.mode == .awaitingKey

end Sys2Proof.Machine
end

