-- ==== Sys2Proof/Syntax.lean ====
section
/-!
DEFINITION. The instructions, one constructor per row of spec/opcode_table.json, in the order of R66.
Operand fields are exactly the fields of R61 that the row's format reads as operands (R63).
A field the format ignores is no operand (R64), except that UNKNOWN keeps its whole word
(DESIGN CHOICE, safe: notes/assumptions/10.md).
-/

namespace Sys2Proof

/-- One decoded instruction with its operand fields `x`, `y`, `n`, `kk`, `nnn` (R65, R66). -/
inductive Instr where
  /-- `CLS`, word 0?E0 (R160). -/
  | cls
  /-- `RET`, word 0?EE (R101). -/
  | ret
  /-- `JP nnn`, word 1nnn (R100). -/
  | jp (nnn : Addr12)
  /-- `CALL nnn`, word 2nnn (R102). -/
  | call (nnn : Addr12)
  /-- `SE Vx,kk`, word 3xkk (R104). -/
  | seVxKk (x : Nibble) (kk : Byte)
  /-- `SNE Vx,kk`, word 4xkk (R105). -/
  | sneVxKk (x : Nibble) (kk : Byte)
  /-- `SE Vx,Vy`, word 5xy? (R106). -/
  | seVxVy (x y : Nibble)
  /-- `LD Vx,kk`, word 6xkk (R120). -/
  | ldVxKk (x : Nibble) (kk : Byte)
  /-- `ADD Vx,kk`, word 7xkk (R121). -/
  | addVxKk (x : Nibble) (kk : Byte)
  /-- `LD Vx,Vy`, word 8xy0 (R122). -/
  | ldVxVy (x y : Nibble)
  /-- `OR Vx,Vy`, word 8xy1 (R123). -/
  | orVxVy (x y : Nibble)
  /-- `AND Vx,Vy`, word 8xy2 (R124). -/
  | andVxVy (x y : Nibble)
  /-- `XOR Vx,Vy`, word 8xy3 (R125). -/
  | xorVxVy (x y : Nibble)
  /-- `ADD Vx,Vy`, word 8xy4 (R126). -/
  | addVxVy (x y : Nibble)
  /-- `SUB Vx,Vy`, word 8xy5 (R127). -/
  | subVxVy (x y : Nibble)
  /-- `SHR Vx`, word 8x?6 (R128). -/
  | shrVx (x : Nibble)
  /-- `SUBN Vx,Vy`, word 8xy7 (R129). -/
  | subnVxVy (x y : Nibble)
  /-- `SHL Vx`, word 8x?E (R130). -/
  | shlVx (x : Nibble)
  /-- `SNE Vx,Vy`, word 9xy? (R107). -/
  | sneVxVy (x y : Nibble)
  /-- `LD I,nnn`, word Annn (R140). -/
  | ldINnn (nnn : Addr12)
  /-- `JP V0,nnn`, word Bnnn (R103). -/
  | jpV0Nnn (nnn : Addr12)
  /-- `RND Vx,kk`, word Cxkk (R131). -/
  | rndVxKk (x : Nibble) (kk : Byte)
  /-- `DRW Vx,Vy,n`, word Dxyn (R161). -/
  | drwVxVyN (x y n : Nibble)
  /-- `SKP Vx`, word Ex9E (R170). -/
  | skpVx (x : Nibble)
  /-- `SKNP Vx`, word ExA1 (R171). -/
  | sknpVx (x : Nibble)
  /-- `LD Vx,DT`, word Fx07 (R173). -/
  | ldVxDt (x : Nibble)
  /-- `LD Vx,K`, word Fx0A (R172). -/
  | ldVxK (x : Nibble)
  /-- `LD DT,Vx`, word Fx15 (R174). -/
  | ldDtVx (x : Nibble)
  /-- `LD ST,Vx`, word Fx18 (R175). -/
  | ldStVx (x : Nibble)
  /-- `ADD I,Vx`, word Fx1E (R141). -/
  | addIVx (x : Nibble)
  /-- `LD F,Vx`, word Fx29 (R142). -/
  | ldFVx (x : Nibble)
  /-- `LD B,Vx`, word Fx33 (R143). -/
  | ldBVx (x : Nibble)
  /-- `LD [I],Vx`, word Fx55 (R144). -/
  | ldMemVx (x : Nibble)
  /-- `LD Vx,[I]`, word Fx65 (R145). -/
  | ldVxMem (x : Nibble)
  /-- The fall-through row UNKNOWN, with the word that no other row selects (R68, R88). -/
  | unknown (w : Word)
deriving DecidableEq, Repr

end Sys2Proof
end

