-- ==== Sys2Proof/WellFormed.lean ====
section
/-!
DEFINITION. The opcode map of R66 as rows of match and mask, and the well-formedness of an instruction.
The operand fields are bounded by their types, so one check is left: UNKNOWN's word is one that no
row of the map selects (R68).
-/

namespace Sys2Proof

/-- One row of the opcode map (R66): a word `w` selects it when `w AND mask = match`. -/
structure OpcodeRow where
  pattern : Word
  mask : Word
deriving DecidableEq, Repr

/-- "A word `w` selects a row when `w AND mask = match`" (R66). -/
def OpcodeRow.selects (r : OpcodeRow) (w : Word) : Bool := w &&& r.mask == r.pattern

/-- The 34 rows of R66, in its order. -/
def opcodeRows : List OpcodeRow := [
  ⟨0x00E0, 0xF0FF⟩,  -- CLS
  ⟨0x00EE, 0xF0FF⟩,  -- RET
  ⟨0x1000, 0xF000⟩,  -- JP nnn
  ⟨0x2000, 0xF000⟩,  -- CALL nnn
  ⟨0x3000, 0xF000⟩,  -- SE Vx,kk
  ⟨0x4000, 0xF000⟩,  -- SNE Vx,kk
  ⟨0x5000, 0xF000⟩,  -- SE Vx,Vy
  ⟨0x6000, 0xF000⟩,  -- LD Vx,kk
  ⟨0x7000, 0xF000⟩,  -- ADD Vx,kk
  ⟨0x8000, 0xF00F⟩,  -- LD Vx,Vy
  ⟨0x8001, 0xF00F⟩,  -- OR Vx,Vy
  ⟨0x8002, 0xF00F⟩,  -- AND Vx,Vy
  ⟨0x8003, 0xF00F⟩,  -- XOR Vx,Vy
  ⟨0x8004, 0xF00F⟩,  -- ADD Vx,Vy
  ⟨0x8005, 0xF00F⟩,  -- SUB Vx,Vy
  ⟨0x8006, 0xF00F⟩,  -- SHR Vx
  ⟨0x8007, 0xF00F⟩,  -- SUBN Vx,Vy
  ⟨0x800E, 0xF00F⟩,  -- SHL Vx
  ⟨0x9000, 0xF000⟩,  -- SNE Vx,Vy
  ⟨0xA000, 0xF000⟩,  -- LD I,nnn
  ⟨0xB000, 0xF000⟩,  -- JP V0,nnn
  ⟨0xC000, 0xF000⟩,  -- RND Vx,kk
  ⟨0xD000, 0xF000⟩,  -- DRW Vx,Vy,n
  ⟨0xE09E, 0xF0FF⟩,  -- SKP Vx
  ⟨0xE0A1, 0xF0FF⟩,  -- SKNP Vx
  ⟨0xF007, 0xF0FF⟩,  -- LD Vx,DT
  ⟨0xF00A, 0xF0FF⟩,  -- LD Vx,K
  ⟨0xF015, 0xF0FF⟩,  -- LD DT,Vx
  ⟨0xF018, 0xF0FF⟩,  -- LD ST,Vx
  ⟨0xF01E, 0xF0FF⟩,  -- ADD I,Vx
  ⟨0xF029, 0xF0FF⟩,  -- LD F,Vx
  ⟨0xF033, 0xF0FF⟩,  -- LD B,Vx
  ⟨0xF055, 0xF0FF⟩,  -- LD [I],Vx
  ⟨0xF065, 0xF0FF⟩]  -- LD Vx,[I]

/-- The word selects none of the 34 rows (R68). -/
def isUnknownWord (w : Word) : Bool := opcodeRows.all fun r => !r.selects w

/-- The place of an instruction's row in `opcodeRows`; UNKNOWN has none, so its place is the list's length. -/
def Instr.rowIndex : Instr → Nat
  | .cls => 0
  | .ret => 1
  | .jp _ => 2
  | .call _ => 3
  | .seVxKk _ _ => 4
  | .sneVxKk _ _ => 5
  | .seVxVy _ _ => 6
  | .ldVxKk _ _ => 7
  | .addVxKk _ _ => 8
  | .ldVxVy _ _ => 9
  | .orVxVy _ _ => 10
  | .andVxVy _ _ => 11
  | .xorVxVy _ _ => 12
  | .addVxVy _ _ => 13
  | .subVxVy _ _ => 14
  | .shrVx _ => 15
  | .subnVxVy _ _ => 16
  | .shlVx _ => 17
  | .sneVxVy _ _ => 18
  | .ldINnn _ => 19
  | .jpV0Nnn _ => 20
  | .rndVxKk _ _ => 21
  | .drwVxVyN _ _ _ => 22
  | .skpVx _ => 23
  | .sknpVx _ => 24
  | .ldVxDt _ => 25
  | .ldVxK _ => 26
  | .ldDtVx _ => 27
  | .ldStVx _ => 28
  | .addIVx _ => 29
  | .ldFVx _ => 30
  | .ldBVx _ => 31
  | .ldMemVx _ => 32
  | .ldVxMem _ => 33
  | .unknown _ => 34

/-- An instruction is well formed unless it is UNKNOWN with a word that some row selects (R68). -/
def Instr.wf : Instr → Bool
  | .unknown w => isUnknownWord w
  | _ => true

end Sys2Proof
end

