-- ==== Sys2Proof/Decode.lean ====
section
/-!
DEFINITION. The decoder (R61, R65) and, after it, the encoder (R63, R66, R69).
Decoding a 16-bit word is total; the only byte sequences refused are those too short to hold an
opcode, and they are refused by name.
-/

namespace Sys2Proof

/-- Field `c`, bits 15:12 (R61). -/
def opClass (op : Word) : Nibble := op.extractLsb' 12 4

/-- Field `x`, bits 11:8 (R61). -/
def fieldX (op : Word) : Nibble := op.extractLsb' 8 4

/-- Field `y`, bits 7:4 (R61). -/
def fieldY (op : Word) : Nibble := op.extractLsb' 4 4

/-- Field `n`, bits 3:0 (R61). -/
def fieldN (op : Word) : Nibble := op.extractLsb' 0 4

/-- Field `kk`, bits 7:0 (R61). -/
def fieldKk (op : Word) : Byte := op.extractLsb' 0 8

/-- Field `nnn`, bits 11:0 (R61). -/
def fieldNnn (op : Word) : Addr12 := op.extractLsb' 0 12

/-- Class 0: two opcodes are told apart by the full low byte, bits 11:8 are not examined (R64, R65). -/
def decodeClass0 (op : Word) : Instr :=
  match (fieldKk op).toNat with
  | 0xE0 => .cls
  | 0xEE => .ret
  | _ => .unknown op

/-- Class 8: the register-register operations, selected by the low nibble (R65). -/
def decodeClass8 (op : Word) : Instr :=
  match (fieldN op).toNat with
  | 0x0 => .ldVxVy (fieldX op) (fieldY op)
  | 0x1 => .orVxVy (fieldX op) (fieldY op)
  | 0x2 => .andVxVy (fieldX op) (fieldY op)
  | 0x3 => .xorVxVy (fieldX op) (fieldY op)
  | 0x4 => .addVxVy (fieldX op) (fieldY op)
  | 0x5 => .subVxVy (fieldX op) (fieldY op)
  | 0x6 => .shrVx (fieldX op)
  | 0x7 => .subnVxVy (fieldX op) (fieldY op)
  | 0xE => .shlVx (fieldX op)
  | _ => .unknown op

/-- Class E: the key tests, selected by the low byte (R65). -/
def decodeClassE (op : Word) : Instr :=
  match (fieldKk op).toNat with
  | 0x9E => .skpVx (fieldX op)
  | 0xA1 => .sknpVx (fieldX op)
  | _ => .unknown op

/-- Class F, selected by the low byte (R65). -/
def decodeClassF (op : Word) : Instr :=
  match (fieldKk op).toNat with
  | 0x07 => .ldVxDt (fieldX op)
  | 0x0A => .ldVxK (fieldX op)
  | 0x15 => .ldDtVx (fieldX op)
  | 0x18 => .ldStVx (fieldX op)
  | 0x1E => .addIVx (fieldX op)
  | 0x29 => .ldFVx (fieldX op)
  | 0x33 => .ldBVx (fieldX op)
  | 0x55 => .ldMemVx (fieldX op)
  | 0x65 => .ldVxMem (fieldX op)
  | _ => .unknown op

/-- The decode procedure of R65, total on 16-bit words. -/
def decodeWord (op : Word) : Instr :=
  match (opClass op).toNat with
  | 0x0 => decodeClass0 op
  | 0x1 => .jp (fieldNnn op)
  | 0x2 => .call (fieldNnn op)
  | 0x3 => .seVxKk (fieldX op) (fieldKk op)
  | 0x4 => .sneVxKk (fieldX op) (fieldKk op)
  | 0x5 => .seVxVy (fieldX op) (fieldY op)
  | 0x6 => .ldVxKk (fieldX op) (fieldKk op)
  | 0x7 => .addVxKk (fieldX op) (fieldKk op)
  | 0x8 => decodeClass8 op
  | 0x9 => .sneVxVy (fieldX op) (fieldY op)
  | 0xA => .ldINnn (fieldNnn op)
  | 0xB => .jpV0Nnn (fieldNnn op)
  | 0xC => .rndVxKk (fieldX op) (fieldKk op)
  | 0xD => .drwVxVyN (fieldX op) (fieldY op) (fieldN op)
  | 0xE => decodeClassE op
  | _ => decodeClassF op

/-- Why a byte sequence holds no instruction. -/
inductive DecodeReject where
  /-- Fewer than the two bytes every instruction has (R60); raised by `decode`, safe. -/
  | truncated
deriving DecidableEq, Repr

/-- Two bytes as an opcode, the first one more significant (R41). -/
def composeOpcode (hi lo : Byte) : Word := zext16 hi <<< 8 ||| zext16 lo

/-- Decode the first instruction of a byte sequence; the rest of the bytes is handed back (R41, R60, R65). -/
def decode : List Byte → Except DecodeReject (Instr × List Byte)
  | hi :: lo :: rest => .ok (decodeWord (composeOpcode hi lo), rest)
  | _ => .error .truncated

/-- Format A: class and address (R63). -/
def wordA (c : Nibble) (nnn : Addr12) : Word := zext16 c <<< 12 ||| zext16 nnn

/-- Formats XK and XS, and format Z with `x` the ignored field: class, register, low byte (R63). -/
def wordXK (c x : Nibble) (kk : Byte) : Word := zext16 c <<< 12 ||| zext16 x <<< 8 ||| zext16 kk

/-- Formats XY, XYS and XYN: class, two registers, low nibble (R63). -/
def wordXY (c x y n : Nibble) : Word :=
  zext16 c <<< 12 ||| zext16 x <<< 8 ||| zext16 y <<< 4 ||| zext16 n

/-- The word of an instruction (R66); the fields a format ignores are 0, as an assembler emits them (R69). -/
def encode : Instr → Word
  | .cls => wordXK 0x0 0 0xE0
  | .ret => wordXK 0x0 0 0xEE
  | .jp nnn => wordA 0x1 nnn
  | .call nnn => wordA 0x2 nnn
  | .seVxKk x kk => wordXK 0x3 x kk
  | .sneVxKk x kk => wordXK 0x4 x kk
  | .seVxVy x y => wordXY 0x5 x y 0
  | .ldVxKk x kk => wordXK 0x6 x kk
  | .addVxKk x kk => wordXK 0x7 x kk
  | .ldVxVy x y => wordXY 0x8 x y 0x0
  | .orVxVy x y => wordXY 0x8 x y 0x1
  | .andVxVy x y => wordXY 0x8 x y 0x2
  | .xorVxVy x y => wordXY 0x8 x y 0x3
  | .addVxVy x y => wordXY 0x8 x y 0x4
  | .subVxVy x y => wordXY 0x8 x y 0x5
  | .shrVx x => wordXY 0x8 x 0 0x6
  | .subnVxVy x y => wordXY 0x8 x y 0x7
  | .shlVx x => wordXY 0x8 x 0 0xE
  | .sneVxVy x y => wordXY 0x9 x y 0
  | .ldINnn nnn => wordA 0xA nnn
  | .jpV0Nnn nnn => wordA 0xB nnn
  | .rndVxKk x kk => wordXK 0xC x kk
  | .drwVxVyN x y n => wordXY 0xD x y n
  | .skpVx x => wordXK 0xE x 0x9E
  | .sknpVx x => wordXK 0xE x 0xA1
  | .ldVxDt x => wordXK 0xF x 0x07
  | .ldVxK x => wordXK 0xF x 0x0A
  | .ldDtVx x => wordXK 0xF x 0x15
  | .ldStVx x => wordXK 0xF x 0x18
  | .addIVx x => wordXK 0xF x 0x1E
  | .ldFVx x => wordXK 0xF x 0x29
  | .ldBVx x => wordXK 0xF x 0x33
  | .ldMemVx x => wordXK 0xF x 0x55
  | .ldVxMem x => wordXK 0xF x 0x65
  | .unknown w => w

/-- An opcode as the two bytes that stand in memory, the more significant one at the lower address (R41, R70). -/
def opcodeBytes (op : Word) : List Byte := [op.extractLsb' 8 8, op.extractLsb' 0 8]

/-- The bytes of an instruction in memory order. -/
def encodeBytes (i : Instr) : List Byte := opcodeBytes (encode i)

/-- The opcode whose lowest `nbits` bits are those of `w`, numbered as spec/opcode_table.json numbers
them (bit 0 the least significant bit of the one word an instruction has); the bits above are 0. -/
def tableWord (nbits w : Nat) : Word := BitVec.ofNat 16 (w % 2 ^ nbits)

/-- What the decoder reads from the bytes of the instruction whose bits are `w`. -/
def decodeTableWord (nbits w : Nat) : Option Instr :=
  match decode (opcodeBytes (tableWord nbits w)) with
  | .ok (i, _) => some i
  | .error _ => none

end Sys2Proof
end

