-- ==== Sys2Proof/Machine/Cycle.lean ====
section
/-!
DEFINITION. The parts of the cycle around an instruction (40_cycle.md): the key latch, the fetch, the
end of the cycle, and the placing of an instruction where the next cycle fetches it.
-/

namespace Sys2Proof.Machine

/-- `K <- keys`, the first action of a cycle (R81). -/
def State.latchKeys (s : State) : State := { s with k := s.keysIn }

/-- The two bytes at pc as an opcode, or none when pc > 0xFFE (R82, R41). -/
def State.fetchOpcode (s : State) : Option Word :=
  if inMemory s.pc.toNat 2 then
    some (composeOpcode (Memory.read s.mem s.pc.toNat) (Memory.read s.mem (s.pc.toNat + 1)))
  else none

/-- A timer's tick (R89). -/
def tickTimer (t : Byte) : Byte := if t.toNat > 0 then t - 1 else 0

/-- The timer tick, the last action of a cycle (R89). -/
def State.tick (s : State) : State := { s with dt := tickTimer s.dt, st := tickTimer s.st }

/-- MODE at the end of a cycle that does not fault: what `LD Vx,K` left if the cycle executed it, else
Running (R90). -/
def State.settleMode (s : State) (i : Instr) : State :=
  match i with
  | .ldVxK _ => s
  | _ => { s with mode := .running }

/-- The host puts the inputs of the next cycle on the ports (R31, R32): free values (notes/assumptions/1.md). -/
def State.nextInputs (s : State) : State :=
  { s with
    inputIdx := s.inputIdx + 1
    keysIn := Config.keysInput (s.inputIdx + 1)
    rndIn := Config.rndInput (s.inputIdx + 1) }

/-- The state a cycle that began in `s` ends in, when the instruction `i` left `t`: a cycle in which a
fault was raised changes nothing of `s` but FLT (R91); any other settles MODE and ticks the timers (R80). -/
def State.endCycle (s : State) (i : Instr) (t : State) : State :=
  match t.flt with
  | some f => s.raise f
  | none => ((t.settleMode i).tick).nextInputs

/-- The end of the cycle, whatever the instruction answered; a fault or a refusal passes through. -/
def State.finishCycle (s : State) (i : Instr) :
    Host.Outcome State Fault Refusal → Host.Outcome State Fault Refusal
  | .next t => .next (s.endCycle i t)
  | .fault f => .fault f
  | .refused r => .refused r

/-- The machine with an opcode stored where the next cycle fetches: at pc, or at the entry point if pc is
not a fetchable address; a stopped core is released. It stands for the load of a program from outside
the machine (DESIGN CHOICE, notes/assumptions/6.md) and is no action of the machine. -/
def State.placeOpcode (s : State) (op : Word) : State :=
  let pc := if inMemory s.pc.toNat 2 then s.pc else Config.entryPc
  { s with pc := pc, flt := none, mem := Memory.writeBytes s.mem pc.toNat (opcodeBytes op) }

end Sys2Proof.Machine
end

