-- ==== Sys2Proof/Machine/Operands.lean ====
section
/-!
DEFINITION. The operand forms: the sampled register operands, the data address, and the values the
instructions derive from one register operand. There is one data addressing mode (R146).
-/

namespace Sys2Proof.Machine

/-- Operand `a`: V[x] sampled before any write (R85). -/
def State.opA (s : State) (x : Nibble) : Byte := s.reg x

/-- Operand `b`: V[y] sampled before any write (R85). -/
def State.opB (s : State) (y : Nibble) : Byte := s.reg y

/-- Operand `v0`: V[0] sampled before any write (R85). -/
def State.opV0 (s : State) : Byte := s.reg 0

/-- The effective address of data byte j: I + j in unbounded integers, not reduced (R43, R146). -/
def State.dataAddr (s : State) (j : Nat) : Nat := s.i.toNat + j

/-- The low hexadecimal digit of an operand, `a[3:0]`: a key number (R170) or a glyph number (R142). -/
def lowDigit (a : Byte) : Nibble := a.extractLsb' 0 4

/-- The address of a digit's glyph, `0x050 + 5 * d` (R142). -/
def glyphAddr (d : Nibble) : Word := BitVec.ofNat 16 (Config.fontBase + Config.glyphLen * d.toNat)

/-- The hundreds, tens and ones of a byte (R143). -/
def bcdDigits (a : Byte) : List Byte := [a / 100, (a / 10) % 10, a % 10]

/-- Keypad flag `K[n]` (R8, R20). -/
def State.keyDown (s : State) (n : Nibble) : Bool := s.k.getLsbD n.toNat

/-- The least pressed key, none when no flag is set (R172). -/
def leastKey (k : Word) : Option Byte :=
  ((List.range 16).find? fun n => k.getLsbD n).map (BitVec.ofNat 8)

end Sys2Proof.Machine
end

