-- ==== Sys2Proof/Machine/Flags.lean ====
section
/-!
DEFINITION. The flags: what each flag-writing instruction puts in VF (R12), and the order of the flag
write and the result write (R86).
-/

namespace Sys2Proof.Machine

/-- A flag as VF holds it: exactly 0 or 1 (R12). -/
def flagByte (f : Bool) : Byte := if f then 1 else 0

/-- The carry of `ADD Vx,Vy`: the unreduced sum exceeds 255 (R126). -/
def carryFlag (a b : Byte) : Bool := a.toNat + b.toNat > 255

/-- The flag of the subtractions: the minuend is strictly greater than the subtrahend (R127, R129). -/
def greaterFlag (minuend subtrahend : Byte) : Bool := minuend.toNat > subtrahend.toNat

/-- The bit `SHR Vx` shifts out, bit 0 (R128). -/
def shiftedOutRight (a : Byte) : Bool := a.getLsbD 0

/-- The bit `SHL Vx` shifts out, bit 7 (R130). -/
def shiftedOutLeft (a : Byte) : Bool := a.getLsbD 7

/-- Write the flag to VF first and the result to V[x] second, so that with x = F the result stands (R86). -/
def State.setFlagThenReg (s : State) (flag : Bool) (x : Nibble) (result : Byte) : State :=
  (s.setReg flagReg (flagByte flag)).setReg x result

end Sys2Proof.Machine
end

