-- ==== Sys2Proof/Machine/Alu.lean ====
section
/-!
DEFINITION. Register loads, arithmetic, logic, shifts and the random byte (42_alu.md).
-/

namespace Sys2Proof.Machine

/-- `LD Vx,kk` (R120). -/
def execLdVxKk (x : Nibble) (kk : Byte) (s : State) : Host.Outcome State Fault Refusal :=
  .next (s.setReg x kk).nextInstr

/-- `ADD Vx,kk` (R121): modulo 256, and no flag. -/
def execAddVxKk (x : Nibble) (kk : Byte) (s : State) : Host.Outcome State Fault Refusal :=
  .next (s.setReg x (s.opA x + kk)).nextInstr

/-- `LD Vx,Vy` (R122). -/
def execLdVxVy (x y : Nibble) (s : State) : Host.Outcome State Fault Refusal :=
  .next (s.setReg x (s.opB y)).nextInstr

/-- `OR Vx,Vy` (R123): VF is left unchanged. -/
def execOrVxVy (x y : Nibble) (s : State) : Host.Outcome State Fault Refusal :=
  .next (s.setReg x (s.opA x ||| s.opB y)).nextInstr

/-- `AND Vx,Vy` (R124): VF is left unchanged. -/
def execAndVxVy (x y : Nibble) (s : State) : Host.Outcome State Fault Refusal :=
  .next (s.setReg x (s.opA x &&& s.opB y)).nextInstr

/-- `XOR Vx,Vy` (R125): VF is left unchanged. -/
def execXorVxVy (x y : Nibble) (s : State) : Host.Outcome State Fault Refusal :=
  .next (s.setReg x (s.opA x ^^^ s.opB y)).nextInstr

/-- `ADD Vx,Vy` (R126): VF is the carry out. -/
def execAddVxVy (x y : Nibble) (s : State) : Host.Outcome State Fault Refusal :=
  .next (s.setFlagThenReg (carryFlag (s.opA x) (s.opB y)) x (s.opA x + s.opB y)).nextInstr

/-- `SUB Vx,Vy` (R127): the minuend is V[x]. -/
def execSubVxVy (x y : Nibble) (s : State) : Host.Outcome State Fault Refusal :=
  .next (s.setFlagThenReg (greaterFlag (s.opA x) (s.opB y)) x (s.opA x - s.opB y)).nextInstr

/-- `SHR Vx` (R128): V[x] is shifted in place by one. -/
def execShrVx (x : Nibble) (s : State) : Host.Outcome State Fault Refusal :=
  .next (s.setFlagThenReg (shiftedOutRight (s.opA x)) x (s.opA x >>> 1)).nextInstr

/-- `SUBN Vx,Vy` (R129): the minuend is V[y]. -/
def execSubnVxVy (x y : Nibble) (s : State) : Host.Outcome State Fault Refusal :=
  .next (s.setFlagThenReg (greaterFlag (s.opB y) (s.opA x)) x (s.opB y - s.opA x)).nextInstr

/-- `SHL Vx` (R130): V[x] is shifted in place by one. -/
def execShlVx (x : Nibble) (s : State) : Host.Outcome State Fault Refusal :=
  .next (s.setFlagThenReg (shiftedOutLeft (s.opA x)) x (s.opA x <<< 1)).nextInstr

/-- `RND Vx,kk` (R131): the byte on the port `rnd`, which no rule constrains, masked. -/
def execRndVxKk (x : Nibble) (kk : Byte) (s : State) : Host.Outcome State Fault Refusal :=
  .next (s.setReg x (s.rndIn &&& kk)).nextInstr

end Sys2Proof.Machine
end

