-- ==== Sys2Proof/Machine/Control.lean ====
section
/-!
DEFINITION. Control flow (41_control_flow.md) and the UNKNOWN fall-through (R88).
-/

namespace Sys2Proof.Machine

/-- `JP nnn` (R100): pc is set directly and nothing more is added. -/
def execJp (nnn : Addr12) (s : State) : Host.Outcome State Fault Refusal :=
  .next (s.jump (zext16 nnn))

/-- `RET` (R101): StackUnderflow when SP = 0; else pc becomes the popped value plus 2. -/
def execRet (s : State) : Host.Outcome State Fault Refusal :=
  s.orRaise .stackUnderflow (s.popEntry.map fun (entry, t) => t.jump (entry + 2))

/-- `CALL nnn` (R102): StackOverflow when SP = 16; else the CALL's own address is pushed. -/
def execCall (nnn : Addr12) (s : State) : Host.Outcome State Fault Refusal :=
  s.orRaise .stackOverflow (s.pushPc.map fun t => t.jump (zext16 nnn))

/-- `JP V0,nnn` (R103): the sum is not reduced modulo 4096. -/
def execJpV0Nnn (nnn : Addr12) (s : State) : Host.Outcome State Fault Refusal :=
  .next (s.jump (zext16 nnn + zext16 s.opV0))

/-- `SE Vx,kk` (R104). -/
def execSeVxKk (x : Nibble) (kk : Byte) (s : State) : Host.Outcome State Fault Refusal :=
  .next (s.skipIf (s.opA x == kk))

/-- `SNE Vx,kk` (R105). -/
def execSneVxKk (x : Nibble) (kk : Byte) (s : State) : Host.Outcome State Fault Refusal :=
  .next (s.skipIf (s.opA x != kk))

/-- `SE Vx,Vy` (R106). -/
def execSeVxVy (x y : Nibble) (s : State) : Host.Outcome State Fault Refusal :=
  .next (s.skipIf (s.opA x == s.opB y))

/-- `SNE Vx,Vy` (R107). -/
def execSneVxVy (x y : Nibble) (s : State) : Host.Outcome State Fault Refusal :=
  .next (s.skipIf (s.opA x != s.opB y))

/-- UNKNOWN (R88): nothing but the advance; never fatal. The log line is no state (R212). -/
def execUnknown (_w : Word) (s : State) : Host.Outcome State Fault Refusal :=
  .next s.nextInstr

end Sys2Proof.Machine
end

