-- ==== Sys2Proof/Machine/Graphics.lean ====
section
/-!
DEFINITION. Graphics (44_graphics.md): clear screen and draw sprite.
-/

namespace Sys2Proof.Machine

/-- `CLS` (R160): VF is not written. -/
def execCls (s : State) : Host.Outcome State Fault Refusal :=
  .next { s with fb := blankScreen }.nextInstr

/-- `DRW Vx,Vy,n` (R161): n sprite bytes from I are XORed in at column a, row b; VF becomes 0 whether or
not a lit pixel was turned off (R162); MemBounds, before any write, if a sprite byte lies outside memory. -/
def execDrwVxVyN (x y n : Nibble) (s : State) : Host.Outcome State Fault Refusal :=
  s.orRaise .memBounds
    ((s.loadBytes (s.dataAddr 0) n.toNat).map fun bs =>
      { s.setReg flagReg 0 with fb := drawRows s.fb (s.opA x) (s.opB y) 0 bs }.nextInstr)

end Sys2Proof.Machine
end

