-- ==== Sys2Proof/Machine/IndexMemory.lean ====
section
/-!
DEFINITION. The index register and the memory transfers (43_index_memory.md). No transfer changes I.
-/

namespace Sys2Proof.Machine

/-- `LD I,nnn` (R140). -/
def execLdINnn (nnn : Addr12) (s : State) : Host.Outcome State Fault Refusal :=
  .next { s with i := zext16 nnn }.nextInstr

/-- `ADD I,Vx` (R141): modulo 65536, and no flag. -/
def execAddIVx (x : Nibble) (s : State) : Host.Outcome State Fault Refusal :=
  .next { s with i := s.i + zext16 (s.opA x) }.nextInstr

/-- `LD F,Vx` (R142): the low digit of V[x] selects the glyph. -/
def execLdFVx (x : Nibble) (s : State) : Host.Outcome State Fault Refusal :=
  .next { s with i := glyphAddr (lowDigit (s.opA x)) }.nextInstr

/-- `LD B,Vx` (R143): hundreds, tens and ones at I, I + 1 and I + 2, or MemBounds. -/
def execLdBVx (x : Nibble) (s : State) : Host.Outcome State Fault Refusal :=
  s.orRaise .memBounds ((s.storeBytes (s.dataAddr 0) (bcdDigits (s.opA x))).map State.nextInstr)

/-- `LD [I],Vx` (R144): V[0..x] to I, I + 1, ..., or MemBounds. -/
def execLdMemVx (x : Nibble) (s : State) : Host.Outcome State Fault Refusal :=
  s.orRaise .memBounds ((s.storeBytes (s.dataAddr 0) (s.regsUpTo x)).map State.nextInstr)

/-- `LD Vx,[I]` (R145): V[0..x] from I, I + 1, ..., or MemBounds. -/
def execLdVxMem (x : Nibble) (s : State) : Host.Outcome State Fault Refusal :=
  s.orRaise .memBounds
    ((s.loadBytes (s.dataAddr 0) (x.toNat + 1)).map fun bs => (s.setRegsFrom0 bs).nextInstr)

end Sys2Proof.Machine
end

