-- ==== Sys2Proof/Machine/KeypadTimers.lean ====
section
/-!
DEFINITION. Keypad tests, the key wait and timer access (45_keypad_timers.md).
-/

namespace Sys2Proof.Machine

/-- `SKP Vx` (R170): skip if the key of V[x]'s low digit is pressed. -/
def execSkpVx (x : Nibble) (s : State) : Host.Outcome State Fault Refusal :=
  .next (s.skipIf (s.keyDown (lowDigit (s.opA x))))

/-- `SKNP Vx` (R171): skip if that key is not pressed. -/
def execSknpVx (x : Nibble) (s : State) : Host.Outcome State Fault Refusal :=
  .next (s.skipIf (!s.keyDown (lowDigit (s.opA x))))

/-- `LD Vx,K` (R172): with no key pressed nothing but MODE changes, pc included; else the least pressed
key's number is stored. The field `mode` carries the rule's `completed` to the end of the cycle (R90). -/
def execLdVxK (x : Nibble) (s : State) : Host.Outcome State Fault Refusal :=
  .next (match leastKey s.k with
    | none => { s with mode := .awaitingKey }
    | some key => { s.setReg x key with mode := .running }.nextInstr)

/-- `LD Vx,DT` (R173). -/
def execLdVxDt (x : Nibble) (s : State) : Host.Outcome State Fault Refusal :=
  .next (s.setReg x s.dt).nextInstr

/-- `LD DT,Vx` (R174); the tick of the same cycle comes after (R89). -/
def execLdDtVx (x : Nibble) (s : State) : Host.Outcome State Fault Refusal :=
  .next { s with dt := s.opA x }.nextInstr

/-- `LD ST,Vx` (R175); the tick of the same cycle comes after (R89). -/
def execLdStVx (x : Nibble) (s : State) : Host.Outcome State Fault Refusal :=
  .next { s with st := s.opA x }.nextInstr

end Sys2Proof.Machine
end

