-- ==== Sys2Proof/Machine/Step.lean ====
section
/-!
DEFINITION. One cycle (R80) as a function of the state, and the placing of an instruction for it.
-/

namespace Sys2Proof.Machine

/-- One request for a cycle (R80). A stopped core ignores it (R94); a pc from which nothing can be fetched
raises PcBounds (R82); else the keys are latched, the opcode is fetched, decoded and executed, and the
cycle ends. The inputs of the request stand in `keysIn` and `rndIn`. -/
def step (s : State) : Host.Outcome State Fault Refusal :=
  match s.flt with
  | some _ => .next s
  | none =>
    match s.fetchOpcode with
    | none => .next (s.raise .pcBounds)
    | some op => s.finishCycle (decodeWord op) (exec (decodeWord op) s.latchKeys)

/-- `s` with the instruction whose `nbits` bits are `w`, numbered as the opcode table numbers them, stored
where the next step fetches it (notes/assumptions/6.md). -/
def State.withFetchWord (s : State) (nbits w : Nat) : State := s.placeOpcode (tableWord nbits w)

end Sys2Proof.Machine
end

