-- ==== Sys2Proof/Safety.lean ====
section
/-!
DEFINITION. The terms in which statements about the machine are made: when a cycle executes an
instruction, the invariants of R37, what an instruction may change, and runs of cycles.
-/

namespace Sys2Proof.Machine

/-- A cycle from `s` executes the instruction `i`: it reaches Execute and the fetched opcode decodes to `i`. -/
def ExecutesInstr (s : State) (i : Instr) : Prop :=
  s.flt = none ∧ ∃ op, s.fetchOpcode = some op ∧ decodeWord op = i

/-- The invariants: the canonical form of memory, which is the model's own (notes/assumptions/12.md), and those of
R37 that types and reads do not already give: (b) the bound of pc; (c) every live stack entry is an address from
which an opcode can be fetched; (d) AwaitingKey means that the opcode at pc is an `LD Vx,K` and that no fault is
latched. -/
structure Inv (s : State) : Prop where
  memory : Memory.wf s.mem
  pcBound : s.pc.toNat ≤ 0x10FE
  stackBound : ∀ j : Fin 16, j.val < s.sp.val → s.stack[j].toNat ≤ 0xFFE
  waiting : s.mode = .awaitingKey → ∃ x, ExecutesInstr s (.ldVxK x)

/-- What an instruction may write, beside pc: registers by index, memory cells by address, and each other
state element by its name. -/
structure Writes where
  regs : List Nibble := []
  index : Bool := false
  sp : Bool := false
  stack : Bool := false
  delay : Bool := false
  sound : Bool := false
  screen : Bool := false
  mode : Bool := false
  cells : List Nat := []

/-- `t` differs from `s` in pc and in what `w` names, and in nothing else. The key latch, the fault latch
and the input ports are unchanged always. -/
structure Frame (w : Writes) (s t : State) : Prop where
  regs : ∀ r, r ∉ w.regs → t.reg r = s.reg r
  index : w.index = false → t.i = s.i
  sp : w.sp = false → t.sp = s.sp
  stack : w.stack = false → t.stack = s.stack
  delay : w.delay = false → t.dt = s.dt
  sound : w.sound = false → t.st = s.st
  screen : w.screen = false → t.fb = s.fb
  mode : w.mode = false → t.mode = s.mode
  cells : ∀ a, a ∉ w.cells → Memory.read t.mem a = Memory.read s.mem a
  keys : t.k = s.k
  fault : t.flt = s.flt
  inputs : t.keysIn = s.keysIn ∧ t.rndIn = s.rndIn ∧ t.inputIdx = s.inputIdx

/-- The register indices 0 to x. -/
def regsTo (x : Nibble) : List Nibble := (List.range (x.toNat + 1)).map (BitVec.ofNat 4)

/-- The `len` addresses from `base` on. -/
def cellsFrom (base len : Nat) : List Nat := (List.range len).map (base + ·)

/-- The fault the cycle from `s` raises, if any: the conditions of R190, PcBounds first (R199). -/
def faultCause (s : State) : Option Fault :=
  match s.fetchOpcode with
  | none => some .pcBounds
  | some op =>
    match decodeWord op with
    | .ret => if s.sp.val = 0 then some .stackUnderflow else none
    | .call _ => if s.sp.val = 16 then some .stackOverflow else none
    | .drwVxVyN _ _ n => if 0 < n.toNat ∧ 0xFFF < s.i.toNat + n.toNat - 1 then some .memBounds else none
    | .ldBVx _ => if 0xFFF < s.i.toNat + 2 then some .memBounds else none
    | .ldMemVx x => if 0xFFF < s.i.toNat + x.toNat then some .memBounds else none
    | .ldVxMem x => if 0xFFF < s.i.toNat + x.toNat then some .memBounds else none
    | _ => none

/-- The instruction names the register as an operand `x` or `y`, or as V0 of `JP V0,nnn`, or within the
block V[0..x] of a register transfer (R11). -/
def namesReg (r : Nibble) : Instr → Prop
  | .seVxKk x _ | .sneVxKk x _ | .ldVxKk x _ | .addVxKk x _ | .rndVxKk x _ => x = r
  | .seVxVy x y | .sneVxVy x y | .ldVxVy x y | .orVxVy x y | .andVxVy x y | .xorVxVy x y
  | .addVxVy x y | .subVxVy x y | .subnVxVy x y | .drwVxVyN x y _ => x = r ∨ y = r
  | .shrVx x | .shlVx x | .skpVx x | .sknpVx x | .ldVxDt x | .ldVxK x | .ldDtVx x | .ldStVx x
  | .addIVx x | .ldFVx x | .ldBVx x => x = r
  | .ldMemVx x | .ldVxMem x => r.toNat ≤ x.toNat
  | .jpV0Nnn _ => r = 0
  | .cls | .ret | .jp _ | .call _ | .ldINnn _ | .unknown _ => False

/-- None of the next `n` cycles from `s` executes an instruction of the class `p`. -/
def CyclesAvoid (p : Instr → Prop) : Nat → State → Prop
  | 0, _ => True
  | n + 1, s => (∀ i, ExecutesInstr s i → ¬ p i) ∧ ∀ t, step s = .next t → CyclesAvoid p n t

/-- `n` cycles, one after another. -/
def cycles : Nat → State → Host.Outcome State Fault Refusal
  | 0, s => .next s
  | n + 1, s =>
    match step s with
    | .next t => cycles n t
    | .fault f => .fault f
    | .refused r => .refused r

/-- The bits of an instruction's word that its format does not ignore (R63, R64, and R128 and R130 for the
y field of the shifts). -/
def careMask : Instr → Word
  | .cls | .ret => 0xF0FF
  | .seVxVy _ _ | .sneVxVy _ _ => 0xFFF0
  | .shrVx _ | .shlVx _ => 0xFF0F
  | _ => 0xFFFF

end Sys2Proof.Machine
end

