-- ==== Sys2Proof/Certificates/Slice0/Obligations.lean ====
section
/-!
DEFINITION. The statements for the provers, each about every state and every operand it quantifies over.
A statement about an instruction gives the decoding of its encoding, its result, its frame, and, where the
rule has one, the fault it raises; `exec` is the instruction's own effect, and what the cycle adds around
it (the key latch, MODE, the timer tick) is stated of `step`.
-/

open Sys2Proof Sys2Proof.Machine

/-- R100: `JP nnn` sets pc to nnn and changes nothing else. -/
def Obligations.JumpSetsPc : Prop :=
  ∀ (nnn : Addr12) (s : State),
    decodeWord (wordA 0x1 nnn) = .jp nnn ∧
    ∃ t, exec (.jp nnn) s = .next t ∧ t.pc.toNat = nnn.toNat ∧ Frame {} s t

/-- R101: `RET` with no active call raises StackUnderflow and changes nothing else; otherwise SP goes down by
one and pc becomes the entry SP then names plus 2, not reduced. The premise on that entry is R37 (c), which
`StepKeepsInvariant` keeps. -/
def Obligations.ReturnPopsCaller : Prop :=
  (∀ x : Nibble, decodeWord (wordXK 0x0 x 0xEE) = .ret) ∧
  (∀ s : State, s.sp.val = 0 → exec .ret s = .next { s with flt := some .stackUnderflow }) ∧
  ∀ (s : State) (j : Fin 16), s.sp.val = j.val + 1 → s.stack[j].toNat ≤ 0xFFE →
    ∃ t, exec .ret s = .next t ∧ t.sp.val = j.val ∧ t.pc.toNat = s.stack[j].toNat + 2 ∧
      Frame { sp := true } s t

/-- R102: `CALL nnn` with sixteen active calls raises StackOverflow and changes nothing else; otherwise it
pushes its own address, increments SP and sets pc to nnn. -/
def Obligations.CallPushesOwnAddress : Prop :=
  ∀ (nnn : Addr12) (s : State),
    decodeWord (wordA 0x2 nnn) = .call nnn ∧
    (s.sp.val = 16 → exec (.call nnn) s = .next { s with flt := some .stackOverflow }) ∧
    (s.sp.val < 16 →
      ∃ t, exec (.call nnn) s = .next t ∧ t.sp.val = s.sp.val + 1 ∧ t.pc.toNat = nnn.toNat ∧
        (∀ j : Fin 16, t.stack[j] = if j.val = s.sp.val then s.pc else s.stack[j]) ∧
        Frame { sp := true, stack := true } s t)

/-- R103: `JP V0,nnn` sets pc to nnn plus V0, not reduced modulo 4096. -/
def Obligations.JumpOffsetAddsV0 : Prop :=
  ∀ (nnn : Addr12) (s : State),
    decodeWord (wordA 0xB nnn) = .jpV0Nnn nnn ∧
    ∃ t, exec (.jpV0Nnn nnn) s = .next t ∧ t.pc.toNat = nnn.toNat + (s.reg 0).toNat ∧ Frame {} s t

/-- R104, R105: the immediate skips advance pc by 4 when their comparison holds and by 2 when it does not. -/
def Obligations.SkipsOnImmediate : Prop :=
  ∀ (x : Nibble) (kk : Byte) (s : State), s.pc.toNat ≤ 0xFFE →
    decodeWord (wordXK 0x3 x kk) = .seVxKk x kk ∧
    decodeWord (wordXK 0x4 x kk) = .sneVxKk x kk ∧
    (∃ t, exec (.seVxKk x kk) s = .next t ∧
      t.pc.toNat = s.pc.toNat + (if s.reg x = kk then 4 else 2) ∧ Frame {} s t) ∧
    ∃ t, exec (.sneVxKk x kk) s = .next t ∧
      t.pc.toNat = s.pc.toNat + (if s.reg x = kk then 2 else 4) ∧ Frame {} s t

/-- R106, R107: the register skips, whatever the ignored bits 3:0 hold. -/
def Obligations.SkipsOnRegisters : Prop :=
  ∀ (x y : Nibble) (s : State), s.pc.toNat ≤ 0xFFE →
    (∀ n, decodeWord (wordXY 0x5 x y n) = .seVxVy x y ∧ decodeWord (wordXY 0x9 x y n) = .sneVxVy x y) ∧
    (∃ t, exec (.seVxVy x y) s = .next t ∧
      t.pc.toNat = s.pc.toNat + (if s.reg x = s.reg y then 4 else 2) ∧ Frame {} s t) ∧
    ∃ t, exec (.sneVxVy x y) s = .next t ∧
      t.pc.toNat = s.pc.toNat + (if s.reg x = s.reg y then 2 else 4) ∧ Frame {} s t

/-- UNKNOWN's own effect: nothing but the advance of pc by 2. -/
def Obligations.UnknownOnlyAdvances : Prop :=
  ∀ (w : Word) (s : State), s.pc.toNat ≤ 0xFFE →
    ∃ t, exec (.unknown w) s = .next t ∧ t.pc.toNat = s.pc.toNat + 2 ∧ Frame {} s t

/-- R88: a whole cycle on a word that no row of the opcode map selects advances pc by 2, sets MODE to Running,
ticks the timers, and changes nothing else; it is never fatal. -/
def Obligations.UnknownCycleIsNoOp : Prop :=
  ∀ (s : State) (w : Word), s.flt = none → s.fetchOpcode = some w → isUnknownWord w = true →
    ∃ t, step s = .next t ∧ t.pc.toNat = s.pc.toNat + 2 ∧ t.mode = .running ∧
      t.dt.toNat = s.dt.toNat - 1 ∧ t.st.toNat = s.st.toNat - 1 ∧ t.k = s.keysIn ∧ t.flt = none ∧
      t.v = s.v ∧ t.i = s.i ∧ t.sp = s.sp ∧ t.stack = s.stack ∧ t.fb = s.fb ∧ t.mem = s.mem

/-- R120, R122: the immediate and the register load write V[x] alone. -/
def Obligations.LoadImmediateAndCopy : Prop :=
  ∀ (x y : Nibble) (kk : Byte) (s : State), s.pc.toNat ≤ 0xFFE →
    decodeWord (wordXK 0x6 x kk) = .ldVxKk x kk ∧
    decodeWord (wordXY 0x8 x y 0x0) = .ldVxVy x y ∧
    (∃ t, exec (.ldVxKk x kk) s = .next t ∧ t.reg x = kk ∧ t.pc.toNat = s.pc.toNat + 2 ∧
      Frame { regs := [x] } s t) ∧
    ∃ t, exec (.ldVxVy x y) s = .next t ∧ t.reg x = s.reg y ∧ t.pc.toNat = s.pc.toNat + 2 ∧
      Frame { regs := [x] } s t

/-- R121: `ADD Vx,kk` adds modulo 256 and writes no flag: VF is unchanged unless it is V[x]. -/
def Obligations.AddImmediateWraps : Prop :=
  ∀ (x : Nibble) (kk : Byte) (s : State), s.pc.toNat ≤ 0xFFE →
    decodeWord (wordXK 0x7 x kk) = .addVxKk x kk ∧
    ∃ t, exec (.addVxKk x kk) s = .next t ∧ (t.reg x).toNat = ((s.reg x).toNat + kk.toNat) % 256 ∧
      t.pc.toNat = s.pc.toNat + 2 ∧ Frame { regs := [x] } s t

/-- R123, R124, R125: OR, AND and XOR, bit by bit, with no flag written. -/
def Obligations.LogicBitByBit : Prop :=
  ∀ (x y : Nibble) (s : State), s.pc.toNat ≤ 0xFFE →
    decodeWord (wordXY 0x8 x y 0x1) = .orVxVy x y ∧
    decodeWord (wordXY 0x8 x y 0x2) = .andVxVy x y ∧
    decodeWord (wordXY 0x8 x y 0x3) = .xorVxVy x y ∧
    (∃ t, exec (.orVxVy x y) s = .next t ∧
      (∀ j, (t.reg x).getLsbD j = ((s.reg x).getLsbD j || (s.reg y).getLsbD j)) ∧
      t.pc.toNat = s.pc.toNat + 2 ∧ Frame { regs := [x] } s t) ∧
    (∃ t, exec (.andVxVy x y) s = .next t ∧
      (∀ j, (t.reg x).getLsbD j = ((s.reg x).getLsbD j && (s.reg y).getLsbD j)) ∧
      t.pc.toNat = s.pc.toNat + 2 ∧ Frame { regs := [x] } s t) ∧
    ∃ t, exec (.xorVxVy x y) s = .next t ∧
      (∀ j, (t.reg x).getLsbD j = ((s.reg x).getLsbD j ^^ (s.reg y).getLsbD j)) ∧
      t.pc.toNat = s.pc.toNat + 2 ∧ Frame { regs := [x] } s t

/-- R126, with R85 and R86: the sum modulo 256 of the sampled operands goes to V[x], and VF is the carry unless
VF is V[x], where the result stands. -/
def Obligations.AddRegistersCarry : Prop :=
  ∀ (x y : Nibble) (s : State), s.pc.toNat ≤ 0xFFE →
    decodeWord (wordXY 0x8 x y 0x4) = .addVxVy x y ∧
    ∃ t, exec (.addVxVy x y) s = .next t ∧
      (t.reg x).toNat = ((s.reg x).toNat + (s.reg y).toNat) % 256 ∧
      (x ≠ 0xF → (t.reg 0xF).toNat = if 255 < (s.reg x).toNat + (s.reg y).toNat then 1 else 0) ∧
      t.pc.toNat = s.pc.toNat + 2 ∧ Frame { regs := [x, 0xF] } s t

/-- R127: `SUB Vx,Vy` takes V[y] from V[x] modulo 256; VF is 1 exactly when V[x] was strictly greater, unless
VF is V[x], where the result stands. -/
def Obligations.SubtractStrictlyGreaterFlag : Prop :=
  ∀ (x y : Nibble) (s : State), s.pc.toNat ≤ 0xFFE →
    decodeWord (wordXY 0x8 x y 0x5) = .subVxVy x y ∧
    ∃ t, exec (.subVxVy x y) s = .next t ∧
      (t.reg x).toNat = ((s.reg x).toNat + 256 - (s.reg y).toNat) % 256 ∧
      (x ≠ 0xF → (t.reg 0xF).toNat = if (s.reg y).toNat < (s.reg x).toNat then 1 else 0) ∧
      t.pc.toNat = s.pc.toNat + 2 ∧ Frame { regs := [x, 0xF] } s t

/-- R129: `SUBN Vx,Vy` takes V[x] from V[y] modulo 256; VF is 1 exactly when V[y] was strictly greater, unless
VF is V[x], where the result stands. -/
def Obligations.ReverseSubtractStrictlyGreaterFlag : Prop :=
  ∀ (x y : Nibble) (s : State), s.pc.toNat ≤ 0xFFE →
    decodeWord (wordXY 0x8 x y 0x7) = .subnVxVy x y ∧
    ∃ t, exec (.subnVxVy x y) s = .next t ∧
      (t.reg x).toNat = ((s.reg y).toNat + 256 - (s.reg x).toNat) % 256 ∧
      (x ≠ 0xF → (t.reg 0xF).toNat = if (s.reg x).toNat < (s.reg y).toNat then 1 else 0) ∧
      t.pc.toNat = s.pc.toNat + 2 ∧ Frame { regs := [x, 0xF] } s t

/-- R128: `SHR Vx` divides V[x] by 2; VF is the old bit 0, unless VF is V[x]; the y field is ignored. -/
def Obligations.ShiftRightHalves : Prop :=
  ∀ (x : Nibble) (s : State), s.pc.toNat ≤ 0xFFE →
    (∀ y, decodeWord (wordXY 0x8 x y 0x6) = .shrVx x) ∧
    ∃ t, exec (.shrVx x) s = .next t ∧ (t.reg x).toNat = (s.reg x).toNat / 2 ∧
      (x ≠ 0xF → (t.reg 0xF).toNat = (s.reg x).toNat % 2) ∧
      t.pc.toNat = s.pc.toNat + 2 ∧ Frame { regs := [x, 0xF] } s t

/-- R130: `SHL Vx` doubles V[x] modulo 256; VF is the old bit 7, unless VF is V[x]; the y field is ignored. -/
def Obligations.ShiftLeftDoubles : Prop :=
  ∀ (x : Nibble) (s : State), s.pc.toNat ≤ 0xFFE →
    (∀ y, decodeWord (wordXY 0x8 x y 0xE) = .shlVx x) ∧
    ∃ t, exec (.shlVx x) s = .next t ∧ (t.reg x).toNat = (s.reg x).toNat * 2 % 256 ∧
      (x ≠ 0xF → (t.reg 0xF).toNat = (s.reg x).toNat / 128) ∧
      t.pc.toNat = s.pc.toNat + 2 ∧ Frame { regs := [x, 0xF] } s t

/-- R131: `RND Vx,kk` stores the byte on the port `rnd`, whatever it is, masked with kk. -/
def Obligations.RandomByteMasked : Prop :=
  ∀ (x : Nibble) (kk : Byte) (s : State), s.pc.toNat ≤ 0xFFE →
    decodeWord (wordXK 0xC x kk) = .rndVxKk x kk ∧
    ∃ t, exec (.rndVxKk x kk) s = .next t ∧
      (∀ j, (t.reg x).getLsbD j = (s.rndIn.getLsbD j && kk.getLsbD j)) ∧
      t.pc.toNat = s.pc.toNat + 2 ∧ Frame { regs := [x] } s t

/-- R140: `LD I,nnn`. -/
def Obligations.LoadIndex : Prop :=
  ∀ (nnn : Addr12) (s : State), s.pc.toNat ≤ 0xFFE →
    decodeWord (wordA 0xA nnn) = .ldINnn nnn ∧
    ∃ t, exec (.ldINnn nnn) s = .next t ∧ t.i.toNat = nnn.toNat ∧
      t.pc.toNat = s.pc.toNat + 2 ∧ Frame { index := true } s t

/-- R141: `ADD I,Vx` adds modulo 65536 and writes no flag. -/
def Obligations.AddIndexWraps : Prop :=
  ∀ (x : Nibble) (s : State), s.pc.toNat ≤ 0xFFE →
    decodeWord (wordXK 0xF x 0x1E) = .addIVx x ∧
    ∃ t, exec (.addIVx x) s = .next t ∧ t.i.toNat = (s.i.toNat + (s.reg x).toNat) % 65536 ∧
      t.pc.toNat = s.pc.toNat + 2 ∧ Frame { index := true } s t

/-- R142: `LD F,Vx` points I at the glyph of V[x]'s low digit. -/
def Obligations.FontAddressOfLowDigit : Prop :=
  ∀ (x : Nibble) (s : State), s.pc.toNat ≤ 0xFFE →
    decodeWord (wordXK 0xF x 0x29) = .ldFVx x ∧
    ∃ t, exec (.ldFVx x) s = .next t ∧ t.i.toNat = 0x050 + 5 * ((s.reg x).toNat % 16) ∧
      t.pc.toNat = s.pc.toNat + 2 ∧ Frame { index := true } s t

/-- R143: `LD B,Vx` stores the three decimal digits at I, I + 1, I + 2, or raises MemBounds and changes nothing
else. The premise on memory is the canonical form, which `StepKeepsInvariant` keeps. -/
def Obligations.BcdStoresDigits : Prop :=
  ∀ (x : Nibble) (s : State), s.pc.toNat ≤ 0xFFE → Memory.wf s.mem →
    decodeWord (wordXK 0xF x 0x33) = .ldBVx x ∧
    (0xFFF < s.i.toNat + 2 → exec (.ldBVx x) s = .next { s with flt := some .memBounds }) ∧
    (s.i.toNat + 2 ≤ 0xFFF →
      ∃ t, exec (.ldBVx x) s = .next t ∧
        (Memory.read t.mem s.i.toNat).toNat = (s.reg x).toNat / 100 ∧
        (Memory.read t.mem (s.i.toNat + 1)).toNat = (s.reg x).toNat / 10 % 10 ∧
        (Memory.read t.mem (s.i.toNat + 2)).toNat = (s.reg x).toNat % 10 ∧
        t.pc.toNat = s.pc.toNat + 2 ∧ Frame { cells := cellsFrom s.i.toNat 3 } s t)

/-- R144: `LD [I],Vx` stores V[0] to V[x] at I, I + 1, ... and leaves I as it was, or raises MemBounds and
changes nothing else. -/
def Obligations.BlockStoreCopiesRegisters : Prop :=
  ∀ (x : Nibble) (s : State), s.pc.toNat ≤ 0xFFE → Memory.wf s.mem →
    decodeWord (wordXK 0xF x 0x55) = .ldMemVx x ∧
    (0xFFF < s.i.toNat + x.toNat → exec (.ldMemVx x) s = .next { s with flt := some .memBounds }) ∧
    (s.i.toNat + x.toNat ≤ 0xFFF →
      ∃ t, exec (.ldMemVx x) s = .next t ∧
        (∀ r : Nibble, r.toNat ≤ x.toNat → Memory.read t.mem (s.i.toNat + r.toNat) = s.reg r) ∧
        t.pc.toNat = s.pc.toNat + 2 ∧ Frame { cells := cellsFrom s.i.toNat (x.toNat + 1) } s t)

/-- R145: `LD Vx,[I]` loads V[0] to V[x] from I, I + 1, ... and leaves I as it was, or raises MemBounds and
changes nothing else. -/
def Obligations.BlockLoadCopiesMemory : Prop :=
  ∀ (x : Nibble) (s : State), s.pc.toNat ≤ 0xFFE →
    decodeWord (wordXK 0xF x 0x65) = .ldVxMem x ∧
    (0xFFF < s.i.toNat + x.toNat → exec (.ldVxMem x) s = .next { s with flt := some .memBounds }) ∧
    (s.i.toNat + x.toNat ≤ 0xFFF →
      ∃ t, exec (.ldVxMem x) s = .next t ∧
        (∀ r : Nibble, r.toNat ≤ x.toNat → t.reg r = Memory.read s.mem (s.i.toNat + r.toNat)) ∧
        t.pc.toNat = s.pc.toNat + 2 ∧ Frame { regs := regsTo x } s t)

/-- R160: `CLS` blanks the framebuffer, whatever it held, and writes no flag. -/
def Obligations.ClearScreenBlanks : Prop :=
  (∀ x : Nibble, decodeWord (wordXK 0x0 x 0xE0) = .cls) ∧
  ∀ s : State, s.pc.toNat ≤ 0xFFE →
    ∃ t, exec .cls s = .next t ∧ (∀ r c, pixel t.fb r c = false) ∧
      t.pc.toNat = s.pc.toNat + 2 ∧ Frame { screen := true } s t

/-- R161, with R163 to R165: `DRW Vx,Vy,n` toggles exactly the pixels on which a lit sprite bit falls, with both
coordinates reduced separately and bit 7 leftmost, and sets VF to 0; or, when a sprite byte lies outside
memory, it raises MemBounds and changes nothing else. -/
def Obligations.DrawTogglesLitPixels : Prop :=
  ∀ (x y n : Nibble) (s : State), s.pc.toNat ≤ 0xFFE →
    decodeWord (wordXY 0xD x y n) = .drwVxVyN x y n ∧
    (0 < n.toNat ∧ 0xFFF < s.i.toNat + n.toNat - 1 →
      exec (.drwVxVyN x y n) s = .next { s with flt := some .memBounds }) ∧
    (n.toNat = 0 ∨ s.i.toNat + n.toNat - 1 ≤ 0xFFF →
      ∃ t, exec (.drwVxVyN x y n) s = .next t ∧ t.reg 0xF = 0 ∧
        (∀ (r : Fin 32) (c : Fin 64),
          pixel t.fb r c ≠ pixel s.fb r c ↔
            ∃ j k, j < n.toNat ∧ k < 8 ∧
              (Memory.read s.mem (s.i.toNat + j)).getLsbD (7 - k) = true ∧
              r.val = ((s.reg y).toNat + j) % 32 ∧ c.val = ((s.reg x).toNat + k) % 64) ∧
        t.pc.toNat = s.pc.toNat + 2 ∧ Frame { regs := [0xF], screen := true } s t)

/-- R165 (e): drawing the same sprite twice at the same place restores the framebuffer, and the second draw
reports no collision (R162). Where VF is a coordinate the second draw stands elsewhere, so VF is excluded. -/
def Obligations.DrawTwiceRestores : Prop :=
  ∀ (x y n : Nibble) (s : State), x ≠ 0xF → y ≠ 0xF → s.i.toNat + n.toNat ≤ 0x1000 →
    ∃ t u, exec (.drwVxVyN x y n) s = .next t ∧ exec (.drwVxVyN x y n) t = .next u ∧
      u.fb = s.fb ∧ u.reg 0xF = 0

/-- R170, R171: the key tests skip on the key whose number is V[x]'s low digit. -/
def Obligations.KeySkips : Prop :=
  ∀ (x : Nibble) (s : State), s.pc.toNat ≤ 0xFFE →
    decodeWord (wordXK 0xE x 0x9E) = .skpVx x ∧
    decodeWord (wordXK 0xE x 0xA1) = .sknpVx x ∧
    (∃ t, exec (.skpVx x) s = .next t ∧
      t.pc.toNat = s.pc.toNat + (if s.k.getLsbD ((s.reg x).toNat % 16) = true then 4 else 2) ∧
      Frame {} s t) ∧
    ∃ t, exec (.sknpVx x) s = .next t ∧
      t.pc.toNat = s.pc.toNat + (if s.k.getLsbD ((s.reg x).toNat % 16) = true then 2 else 4) ∧
      Frame {} s t

/-- R172: `LD Vx,K` with no key pressed changes MODE to AwaitingKey and nothing else, pc included; otherwise the
least pressed key's number goes to V[x], pc advances by 2 and MODE is Running. -/
def Obligations.KeyWaitTakesLeastKey : Prop :=
  ∀ (x : Nibble) (s : State), s.pc.toNat ≤ 0xFFE →
    decodeWord (wordXK 0xF x 0x0A) = .ldVxK x ∧
    (s.k = 0 →
      ∃ t, exec (.ldVxK x) s = .next t ∧ t.pc = s.pc ∧ t.mode = .awaitingKey ∧
        Frame { mode := true } s t) ∧
    (s.k ≠ 0 →
      ∃ t, exec (.ldVxK x) s = .next t ∧ t.mode = .running ∧ t.pc.toNat = s.pc.toNat + 2 ∧
        (t.reg x).toNat < 16 ∧ s.k.getLsbD (t.reg x).toNat = true ∧
        (∀ m, m < (t.reg x).toNat → s.k.getLsbD m = false) ∧
        Frame { regs := [x], mode := true } s t)

/-- The timer instructions' own effects, before the tick of their cycle. -/
def Obligations.TimerAccess : Prop :=
  ∀ (x : Nibble) (s : State), s.pc.toNat ≤ 0xFFE →
    (∃ t, exec (.ldVxDt x) s = .next t ∧ t.reg x = s.dt ∧
      t.pc.toNat = s.pc.toNat + 2 ∧ Frame { regs := [x] } s t) ∧
    (∃ t, exec (.ldDtVx x) s = .next t ∧ t.dt = s.reg x ∧
      t.pc.toNat = s.pc.toNat + 2 ∧ Frame { delay := true } s t) ∧
    ∃ t, exec (.ldStVx x) s = .next t ∧ t.st = s.reg x ∧
      t.pc.toNat = s.pc.toNat + 2 ∧ Frame { sound := true } s t

/-- R173, R174, R175: a timer read gives the value the previous tick left, and a timer write is ticked in its own
cycle; no flag is written and no fault is raised. -/
def Obligations.TimerAccessCycle : Prop :=
  ∀ (x : Nibble) (s : State),
    decodeWord (wordXK 0xF x 0x07) = .ldVxDt x ∧
    decodeWord (wordXK 0xF x 0x15) = .ldDtVx x ∧
    decodeWord (wordXK 0xF x 0x18) = .ldStVx x ∧
    (ExecutesInstr s (.ldVxDt x) →
      ∃ t, step s = .next t ∧ t.reg x = s.dt ∧ (∀ r, r ≠ x → t.reg r = s.reg r) ∧
        t.dt.toNat = s.dt.toNat - 1 ∧ t.st.toNat = s.st.toNat - 1 ∧
        t.pc.toNat = s.pc.toNat + 2 ∧ t.flt = none) ∧
    (ExecutesInstr s (.ldDtVx x) →
      ∃ t, step s = .next t ∧ (∀ r, t.reg r = s.reg r) ∧
        t.dt.toNat = (s.reg x).toNat - 1 ∧ t.st.toNat = s.st.toNat - 1 ∧
        t.pc.toNat = s.pc.toNat + 2 ∧ t.flt = none) ∧
    (ExecutesInstr s (.ldStVx x) →
      ∃ t, step s = .next t ∧ (∀ r, t.reg r = s.reg r) ∧
        t.st.toNat = (s.reg x).toNat - 1 ∧ t.dt.toNat = s.dt.toNat - 1 ∧
        t.pc.toNat = s.pc.toNat + 2 ∧ t.flt = none)

/-- R41: the byte at pc supplies opcode bits 15:8 and the byte at pc + 1 bits 7:0. -/
def Obligations.FetchIsBigEndian : Prop :=
  ∀ s : State, s.pc.toNat ≤ 0xFFE →
    ∃ op, s.fetchOpcode = some op ∧
      op.toNat = (Memory.read s.mem s.pc.toNat).toNat * 256 + (Memory.read s.mem (s.pc.toNat + 1)).toNat

/-- Words written out from R65 and R66, one or more of every family, decode to what they stand for. -/
def Obligations.WrittenOutWordsDecode : Prop :=
  decodeWord 0x00E0 = .cls ∧ decodeWord 0x0AEE = .ret ∧ decodeWord 0x2210 = .call 0x210 ∧
  decodeWord 0xBFFF = .jpV0Nnn 0xFFF ∧ decodeWord 0x5121 = .seVxVy 1 2 ∧
  decodeWord 0x6A3C = .ldVxKk 0xA 0x3C ∧ decodeWord 0x8124 = .addVxVy 1 2 ∧
  decodeWord 0x810E = .shlVx 1 ∧ decodeWord 0xD125 = .drwVxVyN 1 2 5 ∧
  decodeWord 0xE1A1 = .sknpVx 1 ∧ decodeWord 0xF30A = .ldVxK 3 ∧ decodeWord 0xF265 = .ldVxMem 2 ∧
  decodeWord 0x8ABD = .unknown 0x8ABD

/-- A step runs the decoded instruction: when the core is not stopped and the two bytes at pc decode to `i`, the
step is `exec i` on the state with the keys latched, and then either the fault it raised, in the state the
cycle began in, or the end of the cycle: MODE, the timer tick, and the next inputs on the ports.
Two clauses are the model's own and no rule's: the next inputs (DESIGN CHOICE, notes/assumptions/1.md), and where
MODE is written, `LD Vx,K` itself writing it and the end of the cycle writing Running after every other
instruction (DEDUCED, notes/assumptions/4.md). -/
def Obligations.StepRunsDecoded : Prop :=
  ∀ (s u : State) (i : Instr), s.flt = none → s.pc.toNat ≤ 0xFFE →
    decode [Memory.read s.mem s.pc.toNat, Memory.read s.mem (s.pc.toNat + 1)] = .ok (i, []) →
    exec i { s with k := s.keysIn } = .next u →
    (∀ f, u.flt = some f → step s = .next { s with flt := some f }) ∧
    (u.flt = none → step s = .next { u with
      mode := match i with
        | .ldVxK _ => u.mode
        | _ => .running
      dt := if 0 < u.dt.toNat then u.dt - 1 else 0
      st := if 0 < u.st.toNat then u.st - 1 else 0
      inputIdx := u.inputIdx + 1
      keysIn := Config.keysInput (u.inputIdx + 1)
      rndIn := Config.rndInput (u.inputIdx + 1) })

/-- R94: a stopped core ignores the request, and every state element keeps its value. -/
def Obligations.StoppedCoreIgnoresStep : Prop :=
  ∀ (s : State) (f : Fault), s.flt = some f → step s = .next s

/-- R194: a cycle that begins with pc > 0xFFE raises PcBounds and fetches nothing. -/
def Obligations.PcBoundsAtFetch : Prop :=
  ∀ s : State, s.flt = none → 0xFFE < s.pc.toNat →
    s.fetchOpcode = none ∧ step s = .next { s with flt := some .pcBounds }

/-- R91 and R193, with the conditions of R190: a cycle raises exactly the fault that `faultCause` names, and then
nothing but FLT changes; a cycle with no cause leaves FLT clear. -/
def Obligations.FaultsArePreciseAndExact : Prop :=
  ∀ s : State, s.flt = none →
    (∀ f, faultCause s = some f → step s = .next { s with flt := some f }) ∧
    (faultCause s = none → ∃ t, step s = .next t ∧ t.flt = none)

/-- Every step answers a next state, a stopped core's included. R200 says only that a cycle, once requested, runs to
its end; that a fault and a stopped core are answered by a next state, and by no fault or refusal of the model,
is the model's choice (DESIGN CHOICE, notes/assumptions/3.md). -/
def Obligations.CycleAlwaysAnswers : Prop :=
  ∀ s : State, ∃ t, step s = .next t

/-- R89: every cycle that does not fault ends with both timers one lower, resting at 0, where a timer write of
the same cycle counts first. -/
def Obligations.TimersTickEveryCycle : Prop :=
  ∀ s t : State, s.flt = none → step s = .next t → t.flt = none →
    ((∀ x, ¬ ExecutesInstr s (.ldDtVx x)) → t.dt.toNat = s.dt.toNat - 1) ∧
    (∀ x, ExecutesInstr s (.ldDtVx x) → t.dt.toNat = (s.reg x).toNat - 1) ∧
    ((∀ x, ¬ ExecutesInstr s (.ldStVx x)) → t.st.toNat = s.st.toNat - 1) ∧
    (∀ x, ExecutesInstr s (.ldStVx x) → t.st.toNat = (s.reg x).toNat - 1)

/-- R90: at the end of a cycle that does not fault MODE is AwaitingKey exactly when the cycle executed `LD Vx,K`
and its key snapshot was empty. -/
def Obligations.ModeAtEndOfCycle : Prop :=
  ∀ s t : State, s.flt = none → step s = .next t → t.flt = none →
    (t.mode = .awaitingKey ↔ (∃ x, ExecutesInstr s (.ldVxK x)) ∧ s.keysIn = 0)

/-- Every step, from every state that meets the invariants, gives a state that meets them, and a latched fault
stays latched. The clauses on pc, the live stack entries, MODE and FLT are R37's; that memory is in canonical
form is the model's own invariant (DESIGN CHOICE, notes/assumptions/12.md). -/
def Obligations.StepKeepsInvariant : Prop :=
  ∀ s t : State, Inv s → step s = .next t →
    Inv t ∧ ∀ f, s.flt = some f → t.flt = some f

/-- The invariants hold after reset: R37's, and the canonical form of memory, which is the model's own (DESIGN
CHOICE, notes/assumptions/12.md). The stack entries of the reset state are the model's choice too
(notes/assumptions/2.md), and no entry is live there. -/
def Obligations.ResetMeetsInvariant : Prop := Inv State.reset

/-- The invariants hold after reset and boot, whatever the font and the ROM: R37's, and the canonical form of
memory, which is the model's own (DESIGN CHOICE, notes/assumptions/12.md). -/
def Obligations.BootMeetsInvariant : Prop :=
  ∀ (font : Font) (rom : List Byte), Inv (State.reset.bootWith font rom)

/-- The reset values of R220 and R25, all but the stack entries, which the spec leaves unspecified. -/
def Obligations.ResetValues : Prop :=
  (∀ x, State.reset.reg x = 0) ∧ State.reset.i = 0 ∧ State.reset.pc = 0x200 ∧ State.reset.sp = 0 ∧
  State.reset.dt = 0 ∧ State.reset.st = 0 ∧ (∀ r c, pixel State.reset.fb r c = false) ∧
  State.reset.k = 0 ∧ State.reset.mode = .running ∧ State.reset.flt = none ∧
  ∀ a, Memory.read State.reset.mem a = 0

/-- R222: after a successful boot the font stands at 0x050, the ROM at 0x200, every other cell is 0, nothing but
memory changed, and the first cycle fetches the first two ROM bytes. -/
def Obligations.BootLoadsFontAndRom : Prop :=
  ∀ (font : Font) (rom : List Byte), rom.length ≤ 3584 →
    (∀ j : Fin 80, Memory.read (State.reset.bootWith font rom).mem (0x050 + j.val) = font[j]) ∧
    (∀ j : Fin rom.length, Memory.read (State.reset.bootWith font rom).mem (0x200 + j.val) = rom[j]) ∧
    (∀ a, (a < 0x050 ∨ 0x0A0 ≤ a) → (a < 0x200 ∨ 0x200 + rom.length ≤ a) →
      Memory.read (State.reset.bootWith font rom).mem a = 0) ∧
    (∃ m, State.reset.bootWith font rom = { State.reset with mem := m }) ∧
    ∀ b0 b1 rest, rom = b0 :: b1 :: rest →
      (State.reset.bootWith font rom).fetchOpcode = some (composeOpcode b0 b1)

/-- R223: boot of a ROM longer than 3584 bytes writes nothing but FLT, and every later step is ignored. -/
def Obligations.BootRejectsOversizeRom : Prop :=
  ∀ (s : State) (font : Font) (rom : List Byte), 3584 < rom.length →
    s.bootWith font rom = { s with flt := some .romTooLarge } ∧
    ∀ n, cycles n (s.bootWith font rom) = .next (s.bootWith font rom)

/-- Decoding undoes encoding, for every well-formed instruction with every operand at every value. That UNKNOWN has
its word as an operand is the model's choice (DESIGN CHOICE, notes/assumptions/10.md). -/
def Obligations.DecodeEncodeRoundTrip : Prop :=
  ∀ i : Instr, i.wf = true → decodeWord (encode i) = i ∧ decode (encodeBytes i) = .ok (i, [])

/-- Every word decodes to a well-formed instruction, whose encoding is that word with the bits its format ignores
cleared: decoding drops no other bit. That UNKNOWN keeps its whole word, so that its encoding gives back all
sixteen bits, is the model's choice (DESIGN CHOICE, notes/assumptions/10.md). -/
def Obligations.EncodeDecodeKeepsCaredBits : Prop :=
  ∀ w : Word, (decodeWord w).wf = true ∧ encode (decodeWord w) = w &&& careMask (decodeWord w)

/-- R66: a word selects a row of the opcode map exactly when the decode procedure names that row's instruction;
so the 34 rows are pairwise disjoint and UNKNOWN is whatever no row selects. -/
def Obligations.OpcodeMapAgreesWithDecode : Prop :=
  opcodeRows.length = 34 ∧
  ∀ (w : Word) (n : Nat) (r : OpcodeRow), opcodeRows[n]? = some r →
    (w &&& r.mask = r.pattern ↔ (decodeWord w).rowIndex = n)

/-- The unknown words of R68, class by class. -/
def Obligations.UnknownWordsExactly : Prop :=
  ∀ w : Word, decodeWord w = .unknown w ↔
    (opClass w = 0x0 ∧ (fieldKk w).toNat ∉ [0xE0, 0xEE]) ∨
    (opClass w = 0x8 ∧ (fieldN w).toNat ∈ [8, 9, 0xA, 0xB, 0xC, 0xD, 0xF]) ∨
    (opClass w = 0xE ∧ (fieldKk w).toNat ∉ [0x9E, 0xA1]) ∨
    (opClass w = 0xF ∧
      (fieldKk w).toNat ∉ [0x07, 0x0A, 0x15, 0x18, 0x1E, 0x29, 0x33, 0x55, 0x65])

/-- Nothing reads VF implicitly (R12): an instruction that does not name VF as an operand answers, from two states
that differ in VF alone, states that differ in VF at most. -/
def Obligations.VfIsNotReadImplicitly : Prop :=
  ∀ (i : Instr) (s t : State) (vf : Byte), ¬ namesReg 0xF i → exec i s = .next t →
    ∃ t', exec i (s.setReg 0xF vf) = .next t' ∧ t'.setReg 0xF 0 = t.setReg 0xF 0

/-- MODE does not steer the cycle (R21): from two states that differ in MODE alone a step gives the same state, or,
where the cycle faults or the core is stopped, states that differ in MODE alone. -/
def Obligations.ModeDoesNotSteer : Prop :=
  ∀ (s : State) (m : Mode),
    ∃ t, step s = .next t ∧
      step { s with mode := m } = .next (if t.flt = none then t else { t with mode := m })

/-- No register, no memory cell and no other element depends on the framebuffer (R19): an instruction's result from
two states that differ in FB alone differs in FB alone. -/
def Obligations.NothingDependsOnFramebuffer : Prop :=
  ∀ (i : Instr) (s t : State) (fb : Screen), exec i s = .next t →
    ∃ fb', exec i { s with fb := fb } = .next { t with fb := fb' }

/-- Which instructions write each state element beside the registers and pc (R13, R16 to R20, R45, R190).
That MODE is written by `LD Vx,K` alone is the model's split of the cycle (DEDUCED, notes/assumptions/4.md): by
R21 every cycle that does not fault writes MODE, and here the end of the cycle does so for the others. -/
def Obligations.OnlyNamedInstructionsWrite : Prop :=
  ∀ (i : Instr) (s t : State), exec i s = .next t →
    (t.i ≠ s.i → (∃ nnn, i = .ldINnn nnn) ∨ (∃ x, i = .addIVx x) ∨ ∃ x, i = .ldFVx x) ∧
    (t.stack ≠ s.stack → ∃ nnn, i = .call nnn) ∧
    (t.sp ≠ s.sp → i = .ret ∨ ∃ nnn, i = .call nnn) ∧
    (t.dt ≠ s.dt → ∃ x, i = .ldDtVx x) ∧
    (t.st ≠ s.st → ∃ x, i = .ldStVx x) ∧
    (t.fb ≠ s.fb → i = .cls ∨ ∃ x y n, i = .drwVxVyN x y n) ∧
    (t.mem ≠ s.mem → (∃ x, i = .ldBVx x) ∨ ∃ x, i = .ldMemVx x) ∧
    (t.mode ≠ s.mode → ∃ x, i = .ldVxK x) ∧
    (t.flt ≠ s.flt → i = .ret ∨ (∃ nnn, i = .call nnn) ∨ (∃ x y n, i = .drwVxVyN x y n) ∨
      (∃ x, i = .ldBVx x) ∨ (∃ x, i = .ldMemVx x) ∨ ∃ x, i = .ldVxMem x) ∧
    t.k = s.k

/-- R51: a fetch from two cells that a register block store has just written sees the stored registers. -/
def Obligations.StoresAreSeenByFetch : Prop :=
  ∀ (s : State) (x r r' : Nibble), Memory.wf s.mem → s.i.toNat + x.toNat ≤ 0xFFF →
    r'.toNat = r.toNat + 1 → r'.toNat ≤ x.toNat →
    ∃ t, exec (.ldMemVx x) s = .next t ∧
      ({ t with pc := BitVec.ofNat 16 (s.i.toNat + r.toNat) } : State).fetchOpcode =
        some (composeOpcode (s.reg r) (s.reg r'))

/-- The timers count cycles (R207): after n cycles none of which faulted or wrote the timer, each timer is n lower,
resting at 0. -/
def Obligations.TimersCountCycles : Prop :=
  ∀ (n : Nat) (s : State),
    ∃ t, cycles n s = .next t ∧
      (t.flt = none → CyclesAvoid (fun i => ∃ x, i = .ldDtVx x) n s → t.dt.toNat = s.dt.toNat - n) ∧
      (t.flt = none → CyclesAvoid (fun i => ∃ x, i = .ldStVx x) n s → t.st.toNat = s.st.toNat - n)

/-- The output ports show the state (R34 to R36, R166): the pixel at row r and column c is bit 64 r + c of `fb`,
`st_out` is ST, `waiting` is MODE = AwaitingKey, and `fault` is the code of R190. -/
def Obligations.OutputsShowState : Prop :=
  ∀ s : State,
    (∀ (r : Fin 32) (c : Fin 64) (n : Fin 2048), n.val = r.val * 64 + c.val → s.fbPort n = pixel s.fb r c) ∧
    s.stOut = s.st ∧
    (s.waitingPort = true ↔ s.mode = .awaitingKey) ∧
    (s.flt = none → s.faultPort = 0) ∧
    (s.flt = some .pcBounds → s.faultPort = 1) ∧
    (s.flt = some .stackUnderflow → s.faultPort = 2) ∧
    (s.flt = some .stackOverflow → s.faultPort = 3) ∧
    (s.flt = some .memBounds → s.faultPort = 4) ∧
    (s.flt = some .romTooLarge → s.faultPort = 5)
end

