-- ==== Sys2Proof/Laws/Decode.lean ====
section
/-!
SUPPORT. The fields of the three encoding shapes, and the bytes of an opcode.
-/

namespace Sys2Proof

@[simp] theorem opClass_wordA (c : Nibble) (nnn : Addr12) : opClass (wordA c nnn) = c := by
  ext i hi
  interval_cases i <;> simp [opClass, wordA]

@[simp] theorem fieldNnn_wordA (c : Nibble) (nnn : Addr12) : fieldNnn (wordA c nnn) = nnn := by
  ext i hi
  interval_cases i <;> simp [fieldNnn, wordA]

@[simp] theorem opClass_wordXK (c x : Nibble) (kk : Byte) : opClass (wordXK c x kk) = c := by
  ext i hi
  interval_cases i <;> simp [opClass, wordXK]

@[simp] theorem fieldX_wordXK (c x : Nibble) (kk : Byte) : fieldX (wordXK c x kk) = x := by
  ext i hi
  interval_cases i <;> simp [fieldX, wordXK]

@[simp] theorem fieldKk_wordXK (c x : Nibble) (kk : Byte) : fieldKk (wordXK c x kk) = kk := by
  ext i hi
  interval_cases i <;> simp [fieldKk, wordXK]

@[simp] theorem opClass_wordXY (c x y n : Nibble) : opClass (wordXY c x y n) = c := by
  ext i hi
  interval_cases i <;> simp [opClass, wordXY]

@[simp] theorem fieldX_wordXY (c x y n : Nibble) : fieldX (wordXY c x y n) = x := by
  ext i hi
  interval_cases i <;> simp [fieldX, wordXY]

@[simp] theorem fieldY_wordXY (c x y n : Nibble) : fieldY (wordXY c x y n) = y := by
  ext i hi
  interval_cases i <;> simp [fieldY, wordXY]

@[simp] theorem fieldN_wordXY (c x y n : Nibble) : fieldN (wordXY c x y n) = n := by
  ext i hi
  interval_cases i <;> simp [fieldN, wordXY]

/-- A word is its class and address fields (R61). -/
theorem wordA_fields (w : Word) : wordA (opClass w) (fieldNnn w) = w := by
  ext i hi
  interval_cases i <;> simp [opClass, fieldNnn, wordA]

/-- A word is its class, register and low-byte fields (R61). -/
theorem wordXK_fields (w : Word) : wordXK (opClass w) (fieldX w) (fieldKk w) = w := by
  ext i hi
  interval_cases i <;> simp [opClass, fieldX, fieldKk, wordXK]

/-- A word is its four nibbles (R61). -/
theorem wordXY_fields (w : Word) : wordXY (opClass w) (fieldX w) (fieldY w) (fieldN w) = w := by
  ext i hi
  interval_cases i <;> simp [opClass, fieldX, fieldY, fieldN, wordXY]

/-- The opcode read back from its two bytes (R41). -/
@[simp] theorem composeOpcode_bytes (op : Word) :
    composeOpcode (op.extractLsb' 8 8) (op.extractLsb' 0 8) = op := by
  ext i hi
  interval_cases i <;> simp [composeOpcode]

/-- Big-endian composition in arithmetic (R41). -/
theorem toNat_composeOpcode (hi lo : Byte) : (composeOpcode hi lo).toNat = hi.toNat * 256 + lo.toNat := by
  have h : hi.toNat <<< 8 ||| lo.toNat = hi.toNat <<< 8 + lo.toNat :=
    (Nat.shiftLeft_add_eq_or_of_lt lo.isLt hi.toNat).symm
  have h1 := hi.isLt
  have h2 := lo.isLt
  simp only [composeOpcode, BitVec.toNat_or, BitVec.toNat_shiftLeft, BitVec.toNat_setWidth]
  rw [Nat.mod_eq_of_lt (by omega : hi.toNat < 2 ^ 16), Nat.mod_eq_of_lt (by omega : lo.toNat < 2 ^ 16),
    Nat.mod_eq_of_lt (by rw [Nat.shiftLeft_eq]; omega), h, Nat.shiftLeft_eq]

/-- Decoding the bytes of an opcode decodes the opcode and leaves no byte over. -/
@[simp] theorem decode_opcodeBytes (op : Word) : decode (opcodeBytes op) = .ok (decodeWord op, []) := by
  simp [decode, opcodeBytes]

/-- The decoder on a table word is the decode procedure on it. -/
theorem decodeTableWord_eq (nbits w : Nat) :
    decodeTableWord nbits w = some (decodeWord (tableWord nbits w)) := by
  simp [decodeTableWord]

end Sys2Proof
end

