-- ==== Sys2Proof/Laws/Operands.lean ====
section
/-!
SUPPORT. What the operand and flag functions give, in plain arithmetic.
-/

namespace Sys2Proof.Machine

/-- The low digit is the remainder modulo 16. -/
@[simp] theorem toNat_lowDigit (a : Byte) : (lowDigit a).toNat = a.toNat % 16 := by
  simp [lowDigit]

/-- The glyph address is not reduced: the last glyph begins at 0x09B. -/
@[simp] theorem toNat_glyphAddr (d : Nibble) : (glyphAddr d).toNat = 0x050 + 5 * d.toNat := by
  have := d.isLt
  simp only [glyphAddr, Config.fontBase, Config.glyphLen, BitVec.toNat_ofNat]
  omega

/-- A flag in VF is 0 or 1 (R12). -/
@[simp] theorem toNat_flagByte (f : Bool) : (flagByte f).toNat = f.toNat := by
  cases f <;> rfl

/-- There is no least key exactly when no key is pressed (R172). -/
theorem leastKey_eq_none (k : Word) : leastKey k = none ↔ k = 0 := by
  simp only [leastKey, Option.map_eq_none_iff, List.find?_eq_none, List.mem_range, Bool.not_eq_true]
  constructor
  · intro h
    ext i hi
    simpa [BitVec.getLsbD_eq_getElem hi] using h i hi
  · rintro rfl n -
    simp

/-- The least key is a pressed key with no pressed key below it (R172). -/
theorem leastKey_eq_some (k : Word) (key : Byte) (h : leastKey k = some key) :
    key.toNat < 16 ∧ k.getLsbD key.toNat = true ∧ ∀ m, m < key.toNat → k.getLsbD m = false := by
  simp only [leastKey, Option.map_eq_some_iff] at h
  obtain ⟨n, hn, rfl⟩ := h
  rw [List.find?_range_eq_some] at hn
  simp only [List.mem_range, Bool.not_eq_eq_eq_not, Bool.not_true] at hn
  rw [BitVec.toNat_ofNat, Nat.mod_eq_of_lt (by omega)]
  exact ⟨hn.2.1, hn.1, hn.2.2⟩

end Sys2Proof.Machine
end

