-- ==== Sys2Proof/Laws/Memory.lean ====
section
/-!
SUPPORT. The laws of the memory operations: a read after a write, the canonical form, and the block
operations in terms of single bytes.
-/

namespace Sys2Proof.Machine

/-- The canonical form of a list with a first cell. -/
theorem Memory.wf_cons (c : Host.Cell) (m : List Host.Cell) :
    Memory.wf (c :: m) ↔
      (∀ d ∈ m, c.1 < d.1) ∧ c.1 < Config.memSize ∧ c.2 ≠ unlistedByte ∧ Memory.wf m := by
  simp only [Memory.wf, List.pairwise_cons, List.forall_mem_cons]
  tauto

/-- An address below every listed one reads as unlisted. -/
theorem Memory.read_of_below (m : List Host.Cell) (a : Nat) (h : ∀ d ∈ m, a < d.1) :
    Memory.read m a = unlistedByte := by
  induction m with
  | nil => rfl
  | cons c m ih =>
    have h1 := h c (by simp)
    rw [Memory.read, if_neg (by omega), ih fun d hd => h d (by simp [hd])]

/-- A cell put before higher ones reads as its value, listed or not. -/
theorem Memory.read_consCell (a addr : Nat) (b : Byte) (m : List Host.Cell) (h : ∀ d ∈ m, a < d.1) :
    Memory.read (Memory.consCell a b m) addr = if a = addr then b else Memory.read m addr := by
  unfold Memory.consCell
  split
  · split
    · subst_vars
      exact Memory.read_of_below m addr h
    · rfl
  · rfl

/-- A read after a write (R45): the value written at the address written, every other cell as before. -/
theorem Memory.read_write (m : List Host.Cell) (a addr : Nat) (b : Byte) (hm : Memory.wf m) :
    Memory.read (Memory.write m a b) addr = if a = addr then b else Memory.read m addr := by
  induction m with
  | nil => exact Memory.read_consCell a addr b [] (by simp)
  | cons c m ih =>
    obtain ⟨hc, -, -, hw⟩ := (Memory.wf_cons c m).1 hm
    rw [Memory.write]
    split
    · exact Memory.read_consCell _ _ _ _ (by
        simp only [List.forall_mem_cons]
        exact ⟨‹_›, fun d hd => lt_trans ‹_› (hc d hd)⟩)
    · split
      · rw [Memory.read_consCell _ _ _ _ (by rename_i h; rw [h]; exact hc)]
        split
        · rfl
        · rw [Memory.read, if_neg (by omega)]
      · rw [Memory.read, ih hw, Memory.read]
        split <;> split <;> first | rfl | omega

/-- A write leaves every other cell alone, in any list of cells. -/
theorem Memory.read_write_other (m : List Host.Cell) (a addr : Nat) (b : Byte) (h : addr ≠ a) :
    Memory.read (Memory.write m a b) addr = Memory.read m addr := by
  have cons : ∀ m', Memory.read (Memory.consCell a b m') addr = Memory.read m' addr := fun m' => by
    unfold Memory.consCell
    split
    · rfl
    · rw [Memory.read, if_neg (Ne.symm h)]
  induction m with
  | nil => exact cons []
  | cons c m ih =>
    rw [Memory.write]
    split
    · exact cons _
    · split
      · rw [cons, Memory.read, if_neg (by omega)]
      · rw [Memory.read, ih, Memory.read]

/-- Every address listed after a write was listed before, or is the one written. -/
theorem Memory.mem_write_addr (m : List Host.Cell) (a : Nat) (b : Byte) :
    ∀ d ∈ Memory.write m a b, d.1 = a ∨ ∃ e ∈ m, e.1 = d.1 := by
  induction m with
  | nil =>
    intro d hd
    simp only [Memory.write, Memory.consCell] at hd
    split at hd <;> simp_all
  | cons c m ih =>
    intro d hd
    simp only [Memory.write, Memory.consCell] at hd
    split at hd
    · split at hd
      · exact .inr ⟨d, hd, rfl⟩
      · rcases List.mem_cons.1 hd with rfl | hd
        · exact .inl rfl
        · exact .inr ⟨d, hd, rfl⟩
    · split at hd
      · split at hd
        · exact .inr ⟨d, by simp [hd], rfl⟩
        · rcases List.mem_cons.1 hd with rfl | hd
          · exact .inl rfl
          · exact .inr ⟨d, by simp [hd], rfl⟩
      · rcases List.mem_cons.1 hd with rfl | hd
        · exact .inr ⟨c, by simp, rfl⟩
        · rcases ih d hd with h | ⟨e, he, h⟩
          · exact .inl h
          · exact .inr ⟨e, by simp [he], h⟩

/-- Putting a cell before higher ones keeps the canonical form. -/
theorem Memory.wf_consCell (a : Nat) (b : Byte) (m : List Host.Cell) (ha : a < Config.memSize)
    (h : ∀ d ∈ m, a < d.1) (hm : Memory.wf m) : Memory.wf (Memory.consCell a b m) := by
  unfold Memory.consCell
  split
  · exact hm
  · exact (Memory.wf_cons _ _).2 ⟨h, ha, ‹_›, hm⟩

/-- A write inside memory keeps the canonical form. -/
theorem Memory.wf_write (m : List Host.Cell) (a : Nat) (b : Byte) (ha : a < Config.memSize)
    (hm : Memory.wf m) : Memory.wf (Memory.write m a b) := by
  induction m with
  | nil => exact Memory.wf_consCell a b [] ha (by simp) hm
  | cons c m ih =>
    obtain ⟨hc, hc1, hc2, hw⟩ := (Memory.wf_cons c m).1 hm
    rw [Memory.write]
    split
    · exact Memory.wf_consCell _ _ _ ha (by
        simp only [List.forall_mem_cons]
        exact ⟨‹_›, fun d hd => lt_trans ‹_› (hc d hd)⟩) hm
    · split
      · exact Memory.wf_consCell _ _ _ ha (by rename_i h; rw [h]; exact hc) hw
      · refine (Memory.wf_cons _ _).2 ⟨fun d hd => ?_, hc1, hc2, ih hw⟩
        rcases Memory.mem_write_addr m a b d hd with h | ⟨e, he, h⟩
        · show c.1 < d.1
          omega
        · rw [← h]
          exact hc e he

/-- Bytes stored inside memory keep the canonical form. -/
theorem Memory.wf_writeBytes (bs : List Byte) (m : List Host.Cell) (base : Nat)
    (h : base + bs.length ≤ Config.memSize ∨ bs = []) (hm : Memory.wf m) :
    Memory.wf (Memory.writeBytes m base bs) := by
  induction bs generalizing m base with
  | nil => exact hm
  | cons b bs ih =>
    simp only [List.length_cons, reduceCtorEq, or_false] at h
    exact ih _ _ (.inl (by omega)) (Memory.wf_write m base b (by omega) hm)

/-- A cell outside the stored bytes reads as before. -/
theorem Memory.read_writeBytes_outside (bs : List Byte) (m : List Host.Cell) (base addr : Nat)
    (h : addr < base ∨ base + bs.length ≤ addr) :
    Memory.read (Memory.writeBytes m base bs) addr = Memory.read m addr := by
  induction bs generalizing m base with
  | nil => rfl
  | cons b bs ih =>
    simp only [List.length_cons] at h
    rw [Memory.writeBytes, ih _ _ (by omega), Memory.read_write_other _ _ _ _ (by omega)]

/-- A cell among the stored bytes reads as the byte stored there. -/
theorem Memory.read_writeBytes_inside (bs : List Byte) (m : List Host.Cell) (base j : Nat)
    (hj : j < bs.length) (hb : base + bs.length ≤ Config.memSize) (hm : Memory.wf m) :
    Memory.read (Memory.writeBytes m base bs) (base + j) = bs[j] := by
  induction bs generalizing m base j with
  | nil => simp at hj
  | cons b bs ih =>
    simp only [List.length_cons] at hj hb
    rw [Memory.writeBytes]
    have hw := Memory.wf_write m base b (by omega) hm
    cases j with
    | zero =>
      rw [Memory.read_writeBytes_outside _ _ _ _ (by omega), Nat.add_zero, Memory.read_write _ _ _ _ hm]
      simp
    | succ j =>
      have := ih (Memory.write m base b) (base + 1) j (by omega) (by omega) hw
      rw [show base + (j + 1) = base + 1 + j by omega, this]
      rfl

/-- A block read has as many bytes as asked for. -/
@[simp] theorem Memory.length_readBytes (m : List Host.Cell) (base len : Nat) :
    (Memory.readBytes m base len).length = len := by
  induction len generalizing base with
  | zero => rfl
  | succ len ih => simp [Memory.readBytes, ih]

/-- Byte j of a block read is the byte at base + j. -/
@[simp] theorem Memory.getElem_readBytes (m : List Host.Cell) (base len j : Nat)
    (h : j < (Memory.readBytes m base len).length) :
    (Memory.readBytes m base len)[j] = Memory.read m (base + j) := by
  induction len generalizing base j with
  | zero => simp at h
  | succ len ih =>
    cases j with
    | zero => rfl
    | succ j =>
      simp only [Memory.readBytes, List.getElem_cons_succ, ih]
      rw [show base + 1 + j = base + (j + 1) by omega]

/-- The bound of R43 in plain arithmetic. -/
theorem inMemory_iff (base len : Nat) :
    inMemory base len = true ↔ len = 0 ∨ base + len ≤ Config.memSize := by
  simp [inMemory]

end Sys2Proof.Machine
end

