-- ==== Sys2Proof/Laws/State.lean ====
section
/-!
SUPPORT. One lemma per field per update of the state, each true by rfl, so that no later proof unfolds a
record update; and how a register reads after an update.
-/

namespace Sys2Proof.Machine

variable (s : State)

@[simp] theorem State.setReg_v (x : Nibble) (a : Byte) : (s.setReg x a).v = s.v.set x.toNat a x.toNat_lt_sixteen := rfl
@[simp] theorem State.setReg_i (x : Nibble) (a : Byte) : (s.setReg x a).i = s.i := rfl
@[simp] theorem State.setReg_pc (x : Nibble) (a : Byte) : (s.setReg x a).pc = s.pc := rfl
@[simp] theorem State.setReg_sp (x : Nibble) (a : Byte) : (s.setReg x a).sp = s.sp := rfl
@[simp] theorem State.setReg_stack (x : Nibble) (a : Byte) : (s.setReg x a).stack = s.stack := rfl
@[simp] theorem State.setReg_dt (x : Nibble) (a : Byte) : (s.setReg x a).dt = s.dt := rfl
@[simp] theorem State.setReg_st (x : Nibble) (a : Byte) : (s.setReg x a).st = s.st := rfl
@[simp] theorem State.setReg_fb (x : Nibble) (a : Byte) : (s.setReg x a).fb = s.fb := rfl
@[simp] theorem State.setReg_k (x : Nibble) (a : Byte) : (s.setReg x a).k = s.k := rfl
@[simp] theorem State.setReg_mode (x : Nibble) (a : Byte) : (s.setReg x a).mode = s.mode := rfl
@[simp] theorem State.setReg_flt (x : Nibble) (a : Byte) : (s.setReg x a).flt = s.flt := rfl
@[simp] theorem State.setReg_mem (x : Nibble) (a : Byte) : (s.setReg x a).mem = s.mem := rfl
@[simp] theorem State.setReg_keysIn (x : Nibble) (a : Byte) : (s.setReg x a).keysIn = s.keysIn := rfl
@[simp] theorem State.setReg_rndIn (x : Nibble) (a : Byte) : (s.setReg x a).rndIn = s.rndIn := rfl
@[simp] theorem State.setReg_inputIdx (x : Nibble) (a : Byte) : (s.setReg x a).inputIdx = s.inputIdx := rfl

@[simp] theorem State.setRegsFrom0_v (bs : List Byte) : (s.setRegsFrom0 bs).v = s.v.mapFinIdx fun j old _ => bs.getD j old := rfl
@[simp] theorem State.setRegsFrom0_i (bs : List Byte) : (s.setRegsFrom0 bs).i = s.i := rfl
@[simp] theorem State.setRegsFrom0_pc (bs : List Byte) : (s.setRegsFrom0 bs).pc = s.pc := rfl
@[simp] theorem State.setRegsFrom0_sp (bs : List Byte) : (s.setRegsFrom0 bs).sp = s.sp := rfl
@[simp] theorem State.setRegsFrom0_stack (bs : List Byte) : (s.setRegsFrom0 bs).stack = s.stack := rfl
@[simp] theorem State.setRegsFrom0_dt (bs : List Byte) : (s.setRegsFrom0 bs).dt = s.dt := rfl
@[simp] theorem State.setRegsFrom0_st (bs : List Byte) : (s.setRegsFrom0 bs).st = s.st := rfl
@[simp] theorem State.setRegsFrom0_fb (bs : List Byte) : (s.setRegsFrom0 bs).fb = s.fb := rfl
@[simp] theorem State.setRegsFrom0_k (bs : List Byte) : (s.setRegsFrom0 bs).k = s.k := rfl
@[simp] theorem State.setRegsFrom0_mode (bs : List Byte) : (s.setRegsFrom0 bs).mode = s.mode := rfl
@[simp] theorem State.setRegsFrom0_flt (bs : List Byte) : (s.setRegsFrom0 bs).flt = s.flt := rfl
@[simp] theorem State.setRegsFrom0_mem (bs : List Byte) : (s.setRegsFrom0 bs).mem = s.mem := rfl
@[simp] theorem State.setRegsFrom0_keysIn (bs : List Byte) : (s.setRegsFrom0 bs).keysIn = s.keysIn := rfl
@[simp] theorem State.setRegsFrom0_rndIn (bs : List Byte) : (s.setRegsFrom0 bs).rndIn = s.rndIn := rfl
@[simp] theorem State.setRegsFrom0_inputIdx (bs : List Byte) : (s.setRegsFrom0 bs).inputIdx = s.inputIdx := rfl

@[simp] theorem State.raise_v (f : Fault) : (s.raise f).v = s.v := rfl
@[simp] theorem State.raise_i (f : Fault) : (s.raise f).i = s.i := rfl
@[simp] theorem State.raise_pc (f : Fault) : (s.raise f).pc = s.pc := rfl
@[simp] theorem State.raise_sp (f : Fault) : (s.raise f).sp = s.sp := rfl
@[simp] theorem State.raise_stack (f : Fault) : (s.raise f).stack = s.stack := rfl
@[simp] theorem State.raise_dt (f : Fault) : (s.raise f).dt = s.dt := rfl
@[simp] theorem State.raise_st (f : Fault) : (s.raise f).st = s.st := rfl
@[simp] theorem State.raise_fb (f : Fault) : (s.raise f).fb = s.fb := rfl
@[simp] theorem State.raise_k (f : Fault) : (s.raise f).k = s.k := rfl
@[simp] theorem State.raise_mode (f : Fault) : (s.raise f).mode = s.mode := rfl
@[simp] theorem State.raise_flt (f : Fault) : (s.raise f).flt = some f := rfl
@[simp] theorem State.raise_mem (f : Fault) : (s.raise f).mem = s.mem := rfl
@[simp] theorem State.raise_keysIn (f : Fault) : (s.raise f).keysIn = s.keysIn := rfl
@[simp] theorem State.raise_rndIn (f : Fault) : (s.raise f).rndIn = s.rndIn := rfl
@[simp] theorem State.raise_inputIdx (f : Fault) : (s.raise f).inputIdx = s.inputIdx := rfl
@[simp] theorem State.reg_raise (f : Fault) (y : Nibble) : (s.raise f).reg y = s.reg y := rfl

@[simp] theorem State.advance_v (b : Word) : (s.advance b).v = s.v := rfl
@[simp] theorem State.advance_i (b : Word) : (s.advance b).i = s.i := rfl
@[simp] theorem State.advance_pc (b : Word) : (s.advance b).pc = s.pc + b := rfl
@[simp] theorem State.advance_sp (b : Word) : (s.advance b).sp = s.sp := rfl
@[simp] theorem State.advance_stack (b : Word) : (s.advance b).stack = s.stack := rfl
@[simp] theorem State.advance_dt (b : Word) : (s.advance b).dt = s.dt := rfl
@[simp] theorem State.advance_st (b : Word) : (s.advance b).st = s.st := rfl
@[simp] theorem State.advance_fb (b : Word) : (s.advance b).fb = s.fb := rfl
@[simp] theorem State.advance_k (b : Word) : (s.advance b).k = s.k := rfl
@[simp] theorem State.advance_mode (b : Word) : (s.advance b).mode = s.mode := rfl
@[simp] theorem State.advance_flt (b : Word) : (s.advance b).flt = s.flt := rfl
@[simp] theorem State.advance_mem (b : Word) : (s.advance b).mem = s.mem := rfl
@[simp] theorem State.advance_keysIn (b : Word) : (s.advance b).keysIn = s.keysIn := rfl
@[simp] theorem State.advance_rndIn (b : Word) : (s.advance b).rndIn = s.rndIn := rfl
@[simp] theorem State.advance_inputIdx (b : Word) : (s.advance b).inputIdx = s.inputIdx := rfl
@[simp] theorem State.reg_advance (b : Word) (y : Nibble) : (s.advance b).reg y = s.reg y := rfl

@[simp] theorem State.jump_v (w : Word) : (s.jump w).v = s.v := rfl
@[simp] theorem State.jump_i (w : Word) : (s.jump w).i = s.i := rfl
@[simp] theorem State.jump_pc (w : Word) : (s.jump w).pc = w := rfl
@[simp] theorem State.jump_sp (w : Word) : (s.jump w).sp = s.sp := rfl
@[simp] theorem State.jump_stack (w : Word) : (s.jump w).stack = s.stack := rfl
@[simp] theorem State.jump_dt (w : Word) : (s.jump w).dt = s.dt := rfl
@[simp] theorem State.jump_st (w : Word) : (s.jump w).st = s.st := rfl
@[simp] theorem State.jump_fb (w : Word) : (s.jump w).fb = s.fb := rfl
@[simp] theorem State.jump_k (w : Word) : (s.jump w).k = s.k := rfl
@[simp] theorem State.jump_mode (w : Word) : (s.jump w).mode = s.mode := rfl
@[simp] theorem State.jump_flt (w : Word) : (s.jump w).flt = s.flt := rfl
@[simp] theorem State.jump_mem (w : Word) : (s.jump w).mem = s.mem := rfl
@[simp] theorem State.jump_keysIn (w : Word) : (s.jump w).keysIn = s.keysIn := rfl
@[simp] theorem State.jump_rndIn (w : Word) : (s.jump w).rndIn = s.rndIn := rfl
@[simp] theorem State.jump_inputIdx (w : Word) : (s.jump w).inputIdx = s.inputIdx := rfl
@[simp] theorem State.reg_jump (w : Word) (y : Nibble) : (s.jump w).reg y = s.reg y := rfl

@[simp] theorem State.latchKeys_v : s.latchKeys.v = s.v := rfl
@[simp] theorem State.latchKeys_i : s.latchKeys.i = s.i := rfl
@[simp] theorem State.latchKeys_pc : s.latchKeys.pc = s.pc := rfl
@[simp] theorem State.latchKeys_sp : s.latchKeys.sp = s.sp := rfl
@[simp] theorem State.latchKeys_stack : s.latchKeys.stack = s.stack := rfl
@[simp] theorem State.latchKeys_dt : s.latchKeys.dt = s.dt := rfl
@[simp] theorem State.latchKeys_st : s.latchKeys.st = s.st := rfl
@[simp] theorem State.latchKeys_fb : s.latchKeys.fb = s.fb := rfl
@[simp] theorem State.latchKeys_k : s.latchKeys.k = s.keysIn := rfl
@[simp] theorem State.latchKeys_mode : s.latchKeys.mode = s.mode := rfl
@[simp] theorem State.latchKeys_flt : s.latchKeys.flt = s.flt := rfl
@[simp] theorem State.latchKeys_mem : s.latchKeys.mem = s.mem := rfl
@[simp] theorem State.latchKeys_keysIn : s.latchKeys.keysIn = s.keysIn := rfl
@[simp] theorem State.latchKeys_rndIn : s.latchKeys.rndIn = s.rndIn := rfl
@[simp] theorem State.latchKeys_inputIdx : s.latchKeys.inputIdx = s.inputIdx := rfl
@[simp] theorem State.reg_latchKeys (y : Nibble) : s.latchKeys.reg y = s.reg y := rfl

@[simp] theorem State.tick_v : s.tick.v = s.v := rfl
@[simp] theorem State.tick_i : s.tick.i = s.i := rfl
@[simp] theorem State.tick_pc : s.tick.pc = s.pc := rfl
@[simp] theorem State.tick_sp : s.tick.sp = s.sp := rfl
@[simp] theorem State.tick_stack : s.tick.stack = s.stack := rfl
@[simp] theorem State.tick_dt : s.tick.dt = tickTimer s.dt := rfl
@[simp] theorem State.tick_st : s.tick.st = tickTimer s.st := rfl
@[simp] theorem State.tick_fb : s.tick.fb = s.fb := rfl
@[simp] theorem State.tick_k : s.tick.k = s.k := rfl
@[simp] theorem State.tick_mode : s.tick.mode = s.mode := rfl
@[simp] theorem State.tick_flt : s.tick.flt = s.flt := rfl
@[simp] theorem State.tick_mem : s.tick.mem = s.mem := rfl
@[simp] theorem State.tick_keysIn : s.tick.keysIn = s.keysIn := rfl
@[simp] theorem State.tick_rndIn : s.tick.rndIn = s.rndIn := rfl
@[simp] theorem State.tick_inputIdx : s.tick.inputIdx = s.inputIdx := rfl
@[simp] theorem State.reg_tick (y : Nibble) : s.tick.reg y = s.reg y := rfl

@[simp] theorem State.nextInputs_v : s.nextInputs.v = s.v := rfl
@[simp] theorem State.nextInputs_i : s.nextInputs.i = s.i := rfl
@[simp] theorem State.nextInputs_pc : s.nextInputs.pc = s.pc := rfl
@[simp] theorem State.nextInputs_sp : s.nextInputs.sp = s.sp := rfl
@[simp] theorem State.nextInputs_stack : s.nextInputs.stack = s.stack := rfl
@[simp] theorem State.nextInputs_dt : s.nextInputs.dt = s.dt := rfl
@[simp] theorem State.nextInputs_st : s.nextInputs.st = s.st := rfl
@[simp] theorem State.nextInputs_fb : s.nextInputs.fb = s.fb := rfl
@[simp] theorem State.nextInputs_k : s.nextInputs.k = s.k := rfl
@[simp] theorem State.nextInputs_mode : s.nextInputs.mode = s.mode := rfl
@[simp] theorem State.nextInputs_flt : s.nextInputs.flt = s.flt := rfl
@[simp] theorem State.nextInputs_mem : s.nextInputs.mem = s.mem := rfl
@[simp] theorem State.nextInputs_keysIn : s.nextInputs.keysIn = Config.keysInput (s.inputIdx + 1) := rfl
@[simp] theorem State.nextInputs_rndIn : s.nextInputs.rndIn = Config.rndInput (s.inputIdx + 1) := rfl
@[simp] theorem State.nextInputs_inputIdx : s.nextInputs.inputIdx = s.inputIdx + 1 := rfl
@[simp] theorem State.reg_nextInputs (y : Nibble) : s.nextInputs.reg y = s.reg y := rfl

@[simp] theorem State.withInputs_v (keys : Word) (rnd : Byte) : (s.withInputs keys rnd).v = s.v := rfl
@[simp] theorem State.withInputs_i (keys : Word) (rnd : Byte) : (s.withInputs keys rnd).i = s.i := rfl
@[simp] theorem State.withInputs_pc (keys : Word) (rnd : Byte) : (s.withInputs keys rnd).pc = s.pc := rfl
@[simp] theorem State.withInputs_sp (keys : Word) (rnd : Byte) : (s.withInputs keys rnd).sp = s.sp := rfl
@[simp] theorem State.withInputs_stack (keys : Word) (rnd : Byte) : (s.withInputs keys rnd).stack = s.stack := rfl
@[simp] theorem State.withInputs_dt (keys : Word) (rnd : Byte) : (s.withInputs keys rnd).dt = s.dt := rfl
@[simp] theorem State.withInputs_st (keys : Word) (rnd : Byte) : (s.withInputs keys rnd).st = s.st := rfl
@[simp] theorem State.withInputs_fb (keys : Word) (rnd : Byte) : (s.withInputs keys rnd).fb = s.fb := rfl
@[simp] theorem State.withInputs_k (keys : Word) (rnd : Byte) : (s.withInputs keys rnd).k = s.k := rfl
@[simp] theorem State.withInputs_mode (keys : Word) (rnd : Byte) : (s.withInputs keys rnd).mode = s.mode := rfl
@[simp] theorem State.withInputs_flt (keys : Word) (rnd : Byte) : (s.withInputs keys rnd).flt = s.flt := rfl
@[simp] theorem State.withInputs_mem (keys : Word) (rnd : Byte) : (s.withInputs keys rnd).mem = s.mem := rfl
@[simp] theorem State.withInputs_keysIn (keys : Word) (rnd : Byte) : (s.withInputs keys rnd).keysIn = keys := rfl
@[simp] theorem State.withInputs_rndIn (keys : Word) (rnd : Byte) : (s.withInputs keys rnd).rndIn = rnd := rfl
@[simp] theorem State.withInputs_inputIdx (keys : Word) (rnd : Byte) : (s.withInputs keys rnd).inputIdx = s.inputIdx := rfl
@[simp] theorem State.reg_withInputs (keys : Word) (rnd : Byte) (y : Nibble) : (s.withInputs keys rnd).reg y = s.reg y := rfl

@[simp] theorem State.nextInstr_eq_advance : s.nextInstr = s.advance 2 := rfl
@[simp] theorem State.skipIf_eq_advance (c : Bool) : s.skipIf c = s.advance (if c then 4 else 2) := rfl
@[simp] theorem State.opA_eq_reg (x : Nibble) : s.opA x = s.reg x := rfl
@[simp] theorem State.opB_eq_reg (y : Nibble) : s.opB y = s.reg y := rfl
@[simp] theorem State.opV0_eq_reg : s.opV0 = s.reg 0 := rfl
@[simp] theorem State.dataAddr_eq_add (j : Nat) : s.dataAddr j = s.i.toNat + j := rfl

/-- A register reads back what was written to it, and every other one reads as before. -/
@[simp] theorem State.reg_setReg (x y : Nibble) (a : Byte) :
    (s.setReg x a).reg y = if y = x then a else s.reg y := by
  simp only [State.reg, State.setReg, Vector.getElem_set, ← BitVec.toNat_inj]
  split <;> rename_i h
  · rw [if_pos h.symm]
  · rw [if_neg (Ne.symm h)]

/-- What the flag-writing instructions leave in the registers: the result in V[x], whatever x is, and the
flag in VF unless VF is V[x] (R86). -/
@[simp] theorem State.reg_setFlagThenReg (flag : Bool) (x y : Nibble) (r : Byte) :
    (s.setFlagThenReg flag x r).reg y =
      if y = x then r else if y = flagReg then flagByte flag else s.reg y := by
  simp [State.setFlagThenReg]

/-- Register j reads byte j of a loaded block, and a register beyond the block reads as before. -/
@[simp] theorem State.reg_setRegsFrom0 (bs : List Byte) (y : Nibble) :
    (s.setRegsFrom0 bs).reg y = bs.getD y.toNat (s.reg y) := by
  simp [State.reg, State.setRegsFrom0]

@[simp] theorem State.setFlagThenReg_i (flag : Bool) (x : Nibble) (r : Byte) : (s.setFlagThenReg flag x r).i = s.i := rfl
@[simp] theorem State.setFlagThenReg_pc (flag : Bool) (x : Nibble) (r : Byte) : (s.setFlagThenReg flag x r).pc = s.pc := rfl
@[simp] theorem State.setFlagThenReg_sp (flag : Bool) (x : Nibble) (r : Byte) : (s.setFlagThenReg flag x r).sp = s.sp := rfl
@[simp] theorem State.setFlagThenReg_stack (flag : Bool) (x : Nibble) (r : Byte) : (s.setFlagThenReg flag x r).stack = s.stack := rfl
@[simp] theorem State.setFlagThenReg_dt (flag : Bool) (x : Nibble) (r : Byte) : (s.setFlagThenReg flag x r).dt = s.dt := rfl
@[simp] theorem State.setFlagThenReg_st (flag : Bool) (x : Nibble) (r : Byte) : (s.setFlagThenReg flag x r).st = s.st := rfl
@[simp] theorem State.setFlagThenReg_fb (flag : Bool) (x : Nibble) (r : Byte) : (s.setFlagThenReg flag x r).fb = s.fb := rfl
@[simp] theorem State.setFlagThenReg_k (flag : Bool) (x : Nibble) (r : Byte) : (s.setFlagThenReg flag x r).k = s.k := rfl
@[simp] theorem State.setFlagThenReg_mode (flag : Bool) (x : Nibble) (r : Byte) : (s.setFlagThenReg flag x r).mode = s.mode := rfl
@[simp] theorem State.setFlagThenReg_flt (flag : Bool) (x : Nibble) (r : Byte) : (s.setFlagThenReg flag x r).flt = s.flt := rfl
@[simp] theorem State.setFlagThenReg_mem (flag : Bool) (x : Nibble) (r : Byte) : (s.setFlagThenReg flag x r).mem = s.mem := rfl
@[simp] theorem State.setFlagThenReg_keysIn (flag : Bool) (x : Nibble) (r : Byte) : (s.setFlagThenReg flag x r).keysIn = s.keysIn := rfl
@[simp] theorem State.setFlagThenReg_rndIn (flag : Bool) (x : Nibble) (r : Byte) : (s.setFlagThenReg flag x r).rndIn = s.rndIn := rfl
@[simp] theorem State.setFlagThenReg_inputIdx (flag : Bool) (x : Nibble) (r : Byte) : (s.setFlagThenReg flag x r).inputIdx = s.inputIdx := rfl

@[simp] theorem State.settleMode_v (i : Instr) : (s.settleMode i).v = s.v := by cases i <;> rfl
@[simp] theorem State.settleMode_i (i : Instr) : (s.settleMode i).i = s.i := by cases i <;> rfl
@[simp] theorem State.settleMode_pc (i : Instr) : (s.settleMode i).pc = s.pc := by cases i <;> rfl
@[simp] theorem State.settleMode_sp (i : Instr) : (s.settleMode i).sp = s.sp := by cases i <;> rfl
@[simp] theorem State.settleMode_stack (i : Instr) : (s.settleMode i).stack = s.stack := by cases i <;> rfl
@[simp] theorem State.settleMode_dt (i : Instr) : (s.settleMode i).dt = s.dt := by cases i <;> rfl
@[simp] theorem State.settleMode_st (i : Instr) : (s.settleMode i).st = s.st := by cases i <;> rfl
@[simp] theorem State.settleMode_fb (i : Instr) : (s.settleMode i).fb = s.fb := by cases i <;> rfl
@[simp] theorem State.settleMode_k (i : Instr) : (s.settleMode i).k = s.k := by cases i <;> rfl
@[simp] theorem State.settleMode_flt (i : Instr) : (s.settleMode i).flt = s.flt := by cases i <;> rfl
@[simp] theorem State.settleMode_mem (i : Instr) : (s.settleMode i).mem = s.mem := by cases i <;> rfl
@[simp] theorem State.settleMode_keysIn (i : Instr) : (s.settleMode i).keysIn = s.keysIn := by cases i <;> rfl
@[simp] theorem State.settleMode_rndIn (i : Instr) : (s.settleMode i).rndIn = s.rndIn := by cases i <;> rfl
@[simp] theorem State.settleMode_inputIdx (i : Instr) : (s.settleMode i).inputIdx = s.inputIdx := by cases i <;> rfl
@[simp] theorem State.reg_settleMode (i : Instr) (y : Nibble) : (s.settleMode i).reg y = s.reg y := by cases i <;> rfl

end Sys2Proof.Machine
end

