-- ==== Sys2Proof/Laws/Ops.lean ====
section
/-!
SUPPORT. What each shared operation does: the call stack, the bounded block accesses, the end of an
instruction that may raise, and the pixels.
-/

namespace Sys2Proof.Machine

/-- The push succeeds exactly below depth 16, and then writes the pc to the slot SP names (R102). -/
theorem State.pushPc_eq_some (s t : State) :
    s.pushPc = some t ↔ ∃ h : s.sp.val < 16,
      t = { s with stack := s.stack.set s.sp.val s.pc h, sp := ⟨s.sp.val + 1, Nat.succ_lt_succ h⟩ } := by
  unfold State.pushPc
  split
  · simp only [Option.some.injEq]
    exact ⟨fun h => ⟨‹_›, h.symm⟩, fun ⟨_, h⟩ => h.symm⟩
  · exact ⟨fun h => by simp at h, fun ⟨h, _⟩ => absurd h ‹_›⟩

/-- The push fails exactly when sixteen calls are active (R196). -/
theorem State.pushPc_eq_none (s : State) : s.pushPc = none ↔ s.sp.val = 16 := by
  have h17 := s.sp.isLt
  unfold State.pushPc
  split <;> rename_i h
  · simp only [reduceCtorEq, false_iff]
    exact Nat.ne_of_lt h
  · simp only [true_iff]
    exact Nat.le_antisymm (Nat.le_of_lt_succ h17) (Nat.not_lt.1 h)

/-- The pop succeeds exactly with an active call, and reads the entry below SP (R101). -/
theorem State.popEntry_eq_some (s t : State) (e : Word) :
    s.popEntry = some (e, t) ↔ ∃ _ : s.sp.val ≠ 0,
      e = s.stack[s.sp.val - 1] ∧ t = { s with sp := ⟨s.sp.val - 1, by omega⟩ } := by
  unfold State.popEntry
  split
  · exact ⟨fun h => by simp at h, fun ⟨h, _⟩ => absurd ‹_› h⟩
  · simp only [Option.some.injEq, Prod.mk.injEq]
    exact ⟨fun h => ⟨‹_›, h.1.symm, h.2.symm⟩, fun ⟨_, h1, h2⟩ => ⟨h1.symm, h2.symm⟩⟩

/-- The pop fails exactly when no call is active (R195). -/
theorem State.popEntry_eq_none (s : State) : s.popEntry = none ↔ s.sp.val = 0 := by
  unfold State.popEntry
  split <;> rename_i h <;> simp only [reduceCtorEq, h]

/-- A block load answers the bytes exactly when all of them lie in memory (R43). -/
theorem State.loadBytes_eq_some (s : State) (base len : Nat) (bs : List Byte) :
    s.loadBytes base len = some bs ↔
      inMemory base len = true ∧ bs = Memory.readBytes s.mem base len := by
  unfold State.loadBytes
  split <;> rename_i h <;> simp only [h, Option.some.injEq, reduceCtorEq, true_and, false_and, eq_comm]

/-- A block load fails exactly when a byte lies outside memory (R43). -/
theorem State.loadBytes_eq_none (s : State) (base len : Nat) :
    s.loadBytes base len = none ↔ inMemory base len = false := by
  unfold State.loadBytes
  split <;> simp_all

/-- A block store happens exactly when all bytes lie in memory, and changes memory alone (R43). -/
theorem State.storeBytes_eq_some (s t : State) (base : Nat) (bs : List Byte) :
    s.storeBytes base bs = some t ↔
      inMemory base bs.length = true ∧ t = { s with mem := Memory.writeBytes s.mem base bs } := by
  unfold State.storeBytes
  split <;> rename_i h <;> simp only [h, Option.some.injEq, reduceCtorEq, true_and, false_and, eq_comm]

/-- A block store fails exactly when a byte would lie outside memory (R43). -/
theorem State.storeBytes_eq_none (s : State) (base : Nat) (bs : List Byte) :
    s.storeBytes base bs = none ↔ inMemory base bs.length = false := by
  unfold State.storeBytes
  split <;> simp_all

/-- A block store keeps the canonical form of memory. -/
theorem State.wf_storeBytes (s t : State) (base : Nat) (bs : List Byte) (hm : Memory.wf s.mem)
    (h : s.storeBytes base bs = some t) : Memory.wf t.mem := by
  obtain ⟨hb, rfl⟩ := (s.storeBytes_eq_some t base bs).1 h
  refine Memory.wf_writeBytes bs s.mem base ?_ hm
  rw [inMemory_iff, List.length_eq_zero_iff] at hb
  exact hb.symm

/-- An instruction that may raise answers its result, or the state it began in with the fault latched. -/
theorem State.orRaise_cases (s t : State) (f : Fault) (r : Option State)
    (h : s.orRaise f r = .next t) : r = some t ∨ r = none ∧ t = s.raise f := by
  cases r <;> simp_all [State.orRaise]

@[simp] theorem State.orRaise_some (s t : State) (f : Fault) : s.orRaise f (some t) = .next t := rfl
@[simp] theorem State.orRaise_none (s : State) (f : Fault) : s.orRaise f none = .next (s.raise f) := rfl

/-- The registers of a block store, one by one (R144). -/
@[simp] theorem State.length_regsUpTo (s : State) (x : Nibble) : (s.regsUpTo x).length = x.toNat + 1 := by
  have := x.toNat_lt_sixteen
  simp [State.regsUpTo]
  omega

@[simp] theorem State.getElem_regsUpTo (s : State) (x y : Nibble) (h : y.toNat < (s.regsUpTo x).length) :
    (s.regsUpTo x)[y.toNat] = s.reg y := by
  simp [State.regsUpTo, State.reg]

/-- Two coordinates of one pixel. -/
theorem pixel_togglePixel (fb : Screen) (r r' : Fin 32) (c c' : Fin 64) :
    pixel (togglePixel fb r c) r' c' =
      (pixel fb r' c' ^^ (decide (r' = r) && decide (c' = c))) := by
  by_cases hr : r' = r
  · subst hr
    by_cases hc : c' = c
    · subst hc
      simp [pixel, togglePixel]
    · have : (c : Nat) ≠ c' := fun h => hc (Fin.ext h.symm)
      simp [pixel, togglePixel, hc, Vector.getElem_set_ne _ _ this]
  · have : (r : Nat) ≠ r' := fun h => hr (Fin.ext h.symm)
    simp [pixel, togglePixel, hr, Vector.getElem_set_ne _ _ this]

@[simp] theorem pixel_blankScreen (r : Fin 32) (c : Fin 64) : pixel blankScreen r c = false := by
  simp [pixel, blankScreen]

/-- Whether a sprite row with its left edge at `a` has a lit bit on column `c`: the sprite column is
`(c - a) mod 64`, and column k is bit 7 - k (R163, R164). -/
def rowLit (a bits : Byte) (c : Fin 64) : Bool :=
  decide ((c.val + 256 - a.toNat) % 64 < 8) && bits.getLsbD (7 - (c.val + 256 - a.toNat) % 64)

/-- Sprite column k falls on column c exactly when k is `(c - a) mod 64`. -/
theorem eq_spriteCol_iff (a : Byte) (c : Fin 64) (k : Nat) (hk : k < 8) :
    c = spriteCol a k ↔ (c.val + 256 - a.toNat) % 64 = k := by
  have ha := a.isLt
  have hc := c.isLt
  simp only [spriteCol, Fin.ext_iff, Fin.val_ofNat]
  omega

/-- Drawing one sprite row toggles exactly its lit pixels. -/
theorem pixel_drawRow (fb : Screen) (row r : Fin 32) (a bits : Byte) (c : Fin 64) :
    pixel (drawRow fb row a bits) r c = (pixel fb r c ^^ (decide (r = row) && rowLit a bits c)) := by
  have step : ∀ (ks : List Nat) (f : Screen), (∀ k ∈ ks, k < 8) → ks.Nodup →
      pixel (ks.foldl (fun f k => if bits.getLsbD (7 - k) then togglePixel f row (spriteCol a k) else f) f) r c =
        (pixel f r c ^^ (decide (r = row) && (decide ((c.val + 256 - a.toNat) % 64 ∈ ks) &&
          bits.getLsbD (7 - (c.val + 256 - a.toNat) % 64)))) := by
    intro ks
    induction ks with
    | nil => simp
    | cons k ks ih =>
      intro f hlt hnd
      simp only [List.forall_mem_cons, List.nodup_cons] at hlt hnd
      rw [List.foldl_cons, ih _ hlt.2 hnd.2]
      have hk := eq_spriteCol_iff a c k hlt.1
      by_cases hd : (c.val + 256 - a.toNat) % 64 = k
      · have hnot : decide ((c.val + 256 - a.toNat) % 64 ∈ ks) = false := by simpa [hd] using hnd.1
        rw [hnot]
        cases hb : bits.getLsbD (7 - k) <;> simp [hd, hb, pixel_togglePixel, hk]
      · cases hb : bits.getLsbD (7 - k) <;> simp [hd, pixel_togglePixel, hk]
  rw [drawRow, step _ _ (by simp) List.nodup_range]
  simp [rowLit]

/-- Whether drawing `bits` rows from sprite row r on lights pixel (row, c): the sprite row there is
`(row - b - r) mod 32` rows further on (R164). -/
def rowsLit (a b : Byte) (r : Nat) (bs : List Byte) (row : Fin 32) (c : Fin 64) : Bool :=
  match bs[(row.val + 320 - b.toNat - r) % 32]? with
  | some bits => rowLit a bits c
  | none => false

/-- Drawing at most 32 sprite rows toggles exactly their lit pixels, each of them once (R165 d). -/
theorem pixel_drawRows (bs : List Byte) (fb : Screen) (a b : Byte) (r : Nat) (row : Fin 32) (c : Fin 64)
    (h : r + bs.length ≤ 32) :
    pixel (drawRows fb a b r bs) row c = (pixel fb row c ^^ rowsLit a b r bs row c) := by
  induction bs generalizing fb r with
  | nil => simp [drawRows, rowsLit]
  | cons bits rest ih =>
    simp only [List.length_cons] at h
    have hb := b.isLt
    have hr := row.isLt
    rw [drawRows, ih _ _ (by omega), pixel_drawRow]
    have hrow : row = spriteRow b r ↔ (row.val + 320 - b.toNat - r) % 32 = 0 := by
      simp only [spriteRow, Fin.ext_iff, Fin.val_ofNat]
      omega
    by_cases h0 : (row.val + 320 - b.toNat - r) % 32 = 0
    · have h31 : (row.val + 320 - b.toNat - (r + 1)) % 32 = 31 := by omega
      have hnone : rest[31]? = none := by
        rw [List.getElem?_eq_none_iff]
        omega
      simp [rowsLit, h0, h31, hnone, hrow]
    · have hsucc : (row.val + 320 - b.toNat - r) % 32 =
          (row.val + 320 - b.toNat - (r + 1)) % 32 + 1 := by omega
      have hne : ¬ row = spriteRow b r := fun e => h0 (hrow.1 e)
      have hlit : rowsLit a b r (bits :: rest) row c = rowsLit a b (r + 1) rest row c := by
        simp only [rowsLit, hsucc, List.getElem?_cons_succ]
      simp [hne, hlit]

end Sys2Proof.Machine
end

