-- ==== Sys2Proof/Laws/Exec.lean ====
section
/-!
SUPPORT. The instructions that may raise a fault or wait, as equations: one for each side of their check.
-/

namespace Sys2Proof.Machine

variable (s : State)

/-- `inMemory` fails exactly when the last byte touched lies beyond 0xFFF. -/
theorem inMemory_eq_false (base len : Nat) :
    inMemory base len = false ↔ 0 < len ∧ 4096 < base + len := by
  rw [← Bool.not_eq_true, inMemory_iff]
  simp only [Config.memSize]
  omega

theorem execRet_of_empty (h : s.sp.val = 0) : execRet s = .next (s.raise .stackUnderflow) := by
  rw [execRet, (State.popEntry_eq_none s).2 h]
  rfl

theorem execRet_of_active (h : s.sp.val ≠ 0) :
    execRet s = .next (State.jump { s with sp := ⟨s.sp.val - 1, by omega⟩ }
      (s.stack[s.sp.val - 1]'(by omega) + 2)) := by
  rw [execRet, (State.popEntry_eq_some s _ _).2 ⟨h, rfl, rfl⟩]
  rfl

theorem execCall_of_full (nnn : Addr12) (h : s.sp.val = 16) :
    execCall nnn s = .next (s.raise .stackOverflow) := by
  rw [execCall, (State.pushPc_eq_none s).2 h]
  rfl

theorem execCall_of_room (nnn : Addr12) (h : s.sp.val < 16) :
    execCall nnn s = .next (State.jump
      { s with stack := s.stack.set s.sp.val s.pc h, sp := ⟨s.sp.val + 1, Nat.succ_lt_succ h⟩ }
      (zext16 nnn)) := by
  rw [execCall, (State.pushPc_eq_some s _).2 ⟨h, rfl⟩]
  rfl

theorem execDrwVxVyN_of_outside (x y n : Nibble) (h : inMemory s.i.toNat n.toNat = false) :
    execDrwVxVyN x y n s = .next (s.raise .memBounds) := by
  rw [execDrwVxVyN, (State.loadBytes_eq_none s (s.dataAddr 0) n.toNat).2 h]
  rfl

theorem execDrwVxVyN_of_inside (x y n : Nibble) (h : inMemory s.i.toNat n.toNat = true) :
    execDrwVxVyN x y n s = .next (State.advance { s.setReg flagReg 0 with
      fb := drawRows s.fb (s.reg x) (s.reg y) 0 (Memory.readBytes s.mem s.i.toNat n.toNat) } 2) := by
  rw [execDrwVxVyN, (State.loadBytes_eq_some s (s.dataAddr 0) n.toNat _).2 ⟨h, rfl⟩]
  rfl

theorem execLdBVx_of_outside (x : Nibble) (h : inMemory s.i.toNat 3 = false) :
    execLdBVx x s = .next (s.raise .memBounds) := by
  rw [execLdBVx, (State.storeBytes_eq_none s (s.dataAddr 0) (bcdDigits (s.opA x))).2 h]
  rfl

theorem execLdBVx_of_inside (x : Nibble) (h : inMemory s.i.toNat 3 = true) :
    execLdBVx x s = .next (State.advance
      { s with mem := Memory.writeBytes s.mem s.i.toNat (bcdDigits (s.reg x)) } 2) := by
  rw [execLdBVx, (State.storeBytes_eq_some s _ (s.dataAddr 0) (bcdDigits (s.opA x))).2 ⟨h, rfl⟩]
  rfl

theorem execLdMemVx_of_outside (x : Nibble) (h : inMemory s.i.toNat (x.toNat + 1) = false) :
    execLdMemVx x s = .next (s.raise .memBounds) := by
  rw [execLdMemVx, (State.storeBytes_eq_none s (s.dataAddr 0) _).2 (by rw [State.length_regsUpTo]; exact h)]
  rfl

theorem execLdMemVx_of_inside (x : Nibble) (h : inMemory s.i.toNat (x.toNat + 1) = true) :
    execLdMemVx x s = .next (State.advance
      { s with mem := Memory.writeBytes s.mem s.i.toNat (s.regsUpTo x) } 2) := by
  rw [execLdMemVx, (State.storeBytes_eq_some s _ (s.dataAddr 0) (s.regsUpTo x)).2 ⟨by rw [State.length_regsUpTo]; exact h, rfl⟩]
  rfl

theorem execLdVxMem_of_outside (x : Nibble) (h : inMemory s.i.toNat (x.toNat + 1) = false) :
    execLdVxMem x s = .next (s.raise .memBounds) := by
  rw [execLdVxMem, (State.loadBytes_eq_none s (s.dataAddr 0) (x.toNat + 1)).2 h]
  rfl

theorem execLdVxMem_of_inside (x : Nibble) (h : inMemory s.i.toNat (x.toNat + 1) = true) :
    execLdVxMem x s = .next ((s.setRegsFrom0 (Memory.readBytes s.mem s.i.toNat (x.toNat + 1))).advance 2) := by
  rw [execLdVxMem, (State.loadBytes_eq_some s (s.dataAddr 0) (x.toNat + 1) _).2 ⟨h, rfl⟩]
  rfl

theorem execLdVxK_of_none (x : Nibble) (h : leastKey s.k = none) :
    execLdVxK x s = .next { s with mode := .awaitingKey } := by
  rw [execLdVxK, h]

theorem execLdVxK_of_some (x : Nibble) (key : Byte) (h : leastKey s.k = some key) :
    execLdVxK x s = .next (State.advance { s.setReg x key with mode := .running } 2) := by
  rw [execLdVxK, h]
  rfl

end Sys2Proof.Machine
end

