-- ==== Sys2Proof/Laws/PerInstr.lean ====
section
/-!
SUPPORT. Per instruction: the encoder's word lies in the instruction's own row of the opcode map.
-/

namespace Sys2Proof.Laws.EncodeRow

/-- The word of a well-formed instruction selects its own row (R66); UNKNOWN's selects none (R68). -/
def Statement (i : Instr) : Prop :=
  i.wf = true →
    match opcodeRows[i.rowIndex]? with
    | some r => r.selects (encode i) = true
    | none => isUnknownWord (encode i) = true

/-- Format A: the class nibble is all the row examines. -/
theorem selects_wordA (c : Nibble) (nnn : Addr12) :
    OpcodeRow.selects ⟨wordA c 0, 0xF000⟩ (wordA c nnn) = true := by
  rw [OpcodeRow.selects, beq_iff_eq]
  ext i hi
  interval_cases i <;> simp [wordA]

/-- Format XK: the class nibble is all the row examines. -/
theorem selects_wordXK_class (c x : Nibble) (kk : Byte) :
    OpcodeRow.selects ⟨wordXK c 0 0, 0xF000⟩ (wordXK c x kk) = true := by
  rw [OpcodeRow.selects, beq_iff_eq]
  ext i hi
  interval_cases i <;> simp [wordXK]

/-- Formats Z and XS: the class nibble and the low byte. -/
theorem selects_wordXK_byte (c x : Nibble) (kk : Byte) :
    OpcodeRow.selects ⟨wordXK c 0 kk, 0xF0FF⟩ (wordXK c x kk) = true := by
  rw [OpcodeRow.selects, beq_iff_eq]
  ext i hi
  interval_cases i <;> simp [wordXK]

/-- Formats XY and XYN: the class nibble. -/
theorem selects_wordXY_class (c x y n : Nibble) :
    OpcodeRow.selects ⟨wordXY c 0 0 0, 0xF000⟩ (wordXY c x y n) = true := by
  rw [OpcodeRow.selects, beq_iff_eq]
  ext i hi
  interval_cases i <;> simp [wordXY]

/-- Format XYS: the class nibble and the low nibble. -/
theorem selects_wordXY_nibble (c x y n : Nibble) :
    OpcodeRow.selects ⟨wordXY c 0 0 n, 0xF00F⟩ (wordXY c x y n) = true := by
  rw [OpcodeRow.selects, beq_iff_eq]
  ext i hi
  interval_cases i <;> simp [wordXY]

theorem cls : Statement .cls := fun _ => selects_wordXK_byte 0x0 0 0xE0
theorem ret : Statement .ret := fun _ => selects_wordXK_byte 0x0 0 0xEE
theorem jp (nnn : Addr12) : Statement (.jp nnn) := fun _ => selects_wordA 0x1 nnn
theorem call (nnn : Addr12) : Statement (.call nnn) := fun _ => selects_wordA 0x2 nnn
theorem seVxKk (x : Nibble) (kk : Byte) : Statement (.seVxKk x kk) := fun _ => selects_wordXK_class 0x3 x kk
theorem sneVxKk (x : Nibble) (kk : Byte) : Statement (.sneVxKk x kk) := fun _ => selects_wordXK_class 0x4 x kk
theorem seVxVy (x y : Nibble) : Statement (.seVxVy x y) := fun _ => selects_wordXY_class 0x5 x y 0
theorem ldVxKk (x : Nibble) (kk : Byte) : Statement (.ldVxKk x kk) := fun _ => selects_wordXK_class 0x6 x kk
theorem addVxKk (x : Nibble) (kk : Byte) : Statement (.addVxKk x kk) := fun _ => selects_wordXK_class 0x7 x kk
theorem ldVxVy (x y : Nibble) : Statement (.ldVxVy x y) := fun _ => selects_wordXY_nibble 0x8 x y 0x0
theorem orVxVy (x y : Nibble) : Statement (.orVxVy x y) := fun _ => selects_wordXY_nibble 0x8 x y 0x1
theorem andVxVy (x y : Nibble) : Statement (.andVxVy x y) := fun _ => selects_wordXY_nibble 0x8 x y 0x2
theorem xorVxVy (x y : Nibble) : Statement (.xorVxVy x y) := fun _ => selects_wordXY_nibble 0x8 x y 0x3
theorem addVxVy (x y : Nibble) : Statement (.addVxVy x y) := fun _ => selects_wordXY_nibble 0x8 x y 0x4
theorem subVxVy (x y : Nibble) : Statement (.subVxVy x y) := fun _ => selects_wordXY_nibble 0x8 x y 0x5
theorem shrVx (x : Nibble) : Statement (.shrVx x) := fun _ => selects_wordXY_nibble 0x8 x 0 0x6
theorem subnVxVy (x y : Nibble) : Statement (.subnVxVy x y) := fun _ => selects_wordXY_nibble 0x8 x y 0x7
theorem shlVx (x : Nibble) : Statement (.shlVx x) := fun _ => selects_wordXY_nibble 0x8 x 0 0xE
theorem sneVxVy (x y : Nibble) : Statement (.sneVxVy x y) := fun _ => selects_wordXY_class 0x9 x y 0
theorem ldINnn (nnn : Addr12) : Statement (.ldINnn nnn) := fun _ => selects_wordA 0xA nnn
theorem jpV0Nnn (nnn : Addr12) : Statement (.jpV0Nnn nnn) := fun _ => selects_wordA 0xB nnn
theorem rndVxKk (x : Nibble) (kk : Byte) : Statement (.rndVxKk x kk) := fun _ => selects_wordXK_class 0xC x kk
theorem drwVxVyN (x y n : Nibble) : Statement (.drwVxVyN x y n) := fun _ => selects_wordXY_class 0xD x y n
theorem skpVx (x : Nibble) : Statement (.skpVx x) := fun _ => selects_wordXK_byte 0xE x 0x9E
theorem sknpVx (x : Nibble) : Statement (.sknpVx x) := fun _ => selects_wordXK_byte 0xE x 0xA1
theorem ldVxDt (x : Nibble) : Statement (.ldVxDt x) := fun _ => selects_wordXK_byte 0xF x 0x07
theorem ldVxK (x : Nibble) : Statement (.ldVxK x) := fun _ => selects_wordXK_byte 0xF x 0x0A
theorem ldDtVx (x : Nibble) : Statement (.ldDtVx x) := fun _ => selects_wordXK_byte 0xF x 0x15
theorem ldStVx (x : Nibble) : Statement (.ldStVx x) := fun _ => selects_wordXK_byte 0xF x 0x18
theorem addIVx (x : Nibble) : Statement (.addIVx x) := fun _ => selects_wordXK_byte 0xF x 0x1E
theorem ldFVx (x : Nibble) : Statement (.ldFVx x) := fun _ => selects_wordXK_byte 0xF x 0x29
theorem ldBVx (x : Nibble) : Statement (.ldBVx x) := fun _ => selects_wordXK_byte 0xF x 0x33
theorem ldMemVx (x : Nibble) : Statement (.ldMemVx x) := fun _ => selects_wordXK_byte 0xF x 0x55
theorem ldVxMem (x : Nibble) : Statement (.ldVxMem x) := fun _ => selects_wordXK_byte 0xF x 0x65
theorem unknown (w : Word) : Statement (.unknown w) := fun h => h

end Sys2Proof.Laws.EncodeRow
end

