-- ==== Sys2Proof/Laws/Step.lean ====
section
/-!
SUPPORT. What one step can do, once: every later fact about a step starts from `step_cases`.
-/

namespace Sys2Proof.Machine

/-- The fetch succeeds exactly when both bytes lie in memory, and then answers them big-endian (R82). -/
theorem State.fetchOpcode_eq_some (s : State) (op : Word) :
    s.fetchOpcode = some op ↔ s.pc.toNat ≤ 0xFFE ∧
      op = composeOpcode (Memory.read s.mem s.pc.toNat) (Memory.read s.mem (s.pc.toNat + 1)) := by
  have hb : inMemory s.pc.toNat 2 = true ↔ s.pc.toNat ≤ 0xFFE := by
    rw [inMemory_iff]
    simp only [Config.memSize]
    omega
  unfold State.fetchOpcode
  split <;> rename_i h
  · rw [hb] at h
    simp only [Option.some.injEq, h, true_and, eq_comm]
  · rw [hb] at h
    simp only [reduceCtorEq, h, false_and]

/-- The fetch fails exactly beyond 0xFFE (R194). -/
theorem State.fetchOpcode_eq_none (s : State) : s.fetchOpcode = none ↔ 0xFFE < s.pc.toNat := by
  rw [← not_iff_not, not_lt, ← ne_eq, Option.ne_none_iff_exists']
  simp only [State.fetchOpcode_eq_some]
  exact ⟨fun ⟨_, h⟩ => h.1, fun h => ⟨_, h, rfl⟩⟩

/-- The key latch does not move the fetch. -/
@[simp] theorem State.fetchOpcode_latchKeys (s : State) : s.latchKeys.fetchOpcode = s.fetchOpcode := rfl

/-- The end of a cycle after an instruction that raised nothing. -/
theorem State.endCycle_of_none (s t : State) (i : Instr) (h : t.flt = none) :
    s.endCycle i t = ((t.settleMode i).tick).nextInputs := by
  rw [State.endCycle, h]

/-- The end of a cycle in which a fault was raised. -/
theorem State.endCycle_of_some (s t : State) (i : Instr) (f : Fault) (h : t.flt = some f) :
    s.endCycle i t = s.raise f := by
  rw [State.endCycle, h]

/-- Everything a step can do: a stopped core stays as it is, a pc beyond 0xFFE raises PcBounds, and any
other cycle executes the decoded opcode and ends. -/
theorem step_cases (s t : State) (h : step s = .next t) :
    (∃ f, s.flt = some f ∧ t = s) ∨
    (s.flt = none ∧ s.fetchOpcode = none ∧ t = s.raise .pcBounds) ∨
    (∃ op u, s.flt = none ∧ s.fetchOpcode = some op ∧
      exec (decodeWord op) s.latchKeys = .next u ∧ t = s.endCycle (decodeWord op) u) := by
  unfold step at h
  split at h
  · exact .inl ⟨_, ‹_›, by simpa using h.symm⟩
  · split at h
    · exact .inr (.inl ⟨‹_›, ‹_›, by simpa using h.symm⟩)
    · rename_i op hop
      refine .inr (.inr ?_)
      cases he : exec (decodeWord op) s.latchKeys with
      | next u => exact ⟨op, u, ‹_›, ‹_›, he, by simpa [he, State.finishCycle] using h.symm⟩
      | fault f => simp [he, State.finishCycle] at h
      | refused r => simp [he, State.finishCycle] at h

/-- The next fetch after an opcode was placed fetches it. -/
theorem State.fetchOpcode_placeOpcode (s : State) (op : Word) (hm : Memory.wf s.mem) :
    (s.placeOpcode op).fetchOpcode = some op := by
  have hpc : (s.placeOpcode op).pc.toNat + 2 ≤ Config.memSize := by
    simp only [State.placeOpcode]
    split
    · rename_i h
      rw [inMemory_iff] at h
      omega
    · decide
  have hread : ∀ j (hj : j < (opcodeBytes op).length),
      Memory.read (s.placeOpcode op).mem ((s.placeOpcode op).pc.toNat + j) = (opcodeBytes op)[j] :=
    fun j hj => Memory.read_writeBytes_inside _ _ _ _ hj hpc hm
  have h0 := hread 0 (by simp [opcodeBytes])
  have h1 := hread 1 (by simp [opcodeBytes])
  rw [State.fetchOpcode_eq_some]
  refine ⟨by simp only [Config.memSize] at hpc; omega, ?_⟩
  rw [Nat.add_zero] at h0
  rw [h0, h1]
  simp [opcodeBytes]

/-- Placing an opcode keeps the canonical form of memory. -/
theorem State.wf_placeOpcode (s : State) (op : Word) (hm : Memory.wf s.mem) :
    Memory.wf (s.placeOpcode op).mem := by
  refine Memory.wf_writeBytes _ _ _ (.inl ?_) hm
  show _ + 2 ≤ _
  split
  · rename_i h
    rw [inMemory_iff] at h
    omega
  · decide

/-- Boot keeps the canonical form of memory. -/
theorem State.wf_bootWith (s : State) (font : Font) (rom : List Byte) (hm : Memory.wf s.mem) :
    Memory.wf (s.bootWith font rom).mem := by
  unfold State.bootWith
  split
  · exact hm
  · rename_i h
    refine Memory.wf_writeBytes _ _ _ (.inl ?_) (Memory.wf_writeBytes _ _ _ (.inl ?_) hm)
    · simp only [Config.romMax, Config.romBase, Config.memSize] at h ⊢
      omega
    · rw [Vector.length_toList]
      decide

end Sys2Proof.Machine
end

