-- ==== Sys2Proof/Tests/Slice0.lean ====
section
/-!
SUPPORT. Tests of the model: well-formedness, decoding of words written out from the spec's encodings, one
cycle of every instruction, boot, and a witness for the hypotheses of each statement. The expected results
are the vectors of 95_test_vectors.md, whose number stands beside each test, or the spec's own tables.
-/

namespace Sys2Proof.Tests

open Sys2Proof.Machine

/-! ## Well-formedness (R68) -/

theorem test_wf_refuses_known_word_as_unknown : (Instr.unknown 0x00E0).wf = false := by decide

theorem test_wf_accepts_unknown_word : (Instr.unknown 0x0000).wf = true := by decide

theorem test_wf_accepts_operand_extremes :
    (Instr.drwVxVyN 0xF 0xF 0xF).wf = true ∧ (Instr.jp 0xFFF).wf = true := by decide

/-! ## Decoding, every constructor (R65, R66; DE1 to DE14, S1) -/

theorem test_decode_class0 :
    decodeWord 0x00E0 = .cls ∧ decodeWord 0x0FE0 = .cls ∧
    decodeWord 0x00EE = .ret ∧ decodeWord 0x0AEE = .ret := by decide

theorem test_decode_jumps :
    decodeWord 0x1234 = .jp 0x234 ∧ decodeWord 0x2210 = .call 0x210 ∧
    decodeWord 0xBFFF = .jpV0Nnn 0xFFF := by decide

theorem test_decode_skips :
    decodeWord 0x3100 = .seVxKk 0x1 0x00 ∧ decodeWord 0x4211 = .sneVxKk 0x2 0x11 ∧
    decodeWord 0x5120 = .seVxVy 0x1 0x2 ∧ decodeWord 0x5121 = .seVxVy 0x1 0x2 ∧
    decodeWord 0x9AB7 = .sneVxVy 0xA 0xB := by decide

theorem test_decode_immediates :
    decodeWord 0x6A3C = .ldVxKk 0xA 0x3C ∧ decodeWord 0x71FF = .addVxKk 0x1 0xFF ∧
    decodeWord 0xC10F = .rndVxKk 0x1 0x0F := by decide

theorem test_decode_class8 :
    decodeWord 0x8120 = .ldVxVy 0x1 0x2 ∧ decodeWord 0x8121 = .orVxVy 0x1 0x2 ∧
    decodeWord 0x8122 = .andVxVy 0x1 0x2 ∧ decodeWord 0x8123 = .xorVxVy 0x1 0x2 ∧
    decodeWord 0x8F14 = .addVxVy 0xF 0x1 ∧ decodeWord 0x81F5 = .subVxVy 0x1 0xF ∧
    decodeWord 0x8126 = .shrVx 0x1 ∧ decodeWord 0x8127 = .subnVxVy 0x1 0x2 ∧
    decodeWord 0x810E = .shlVx 0x1 := by decide

theorem test_decode_index_and_draw :
    decodeWord 0xA300 = .ldINnn 0x300 ∧ decodeWord 0xD125 = .drwVxVyN 0x1 0x2 0x5 := by decide

theorem test_decode_keys :
    decodeWord 0xE19E = .skpVx 0x1 ∧ decodeWord 0xE1A1 = .sknpVx 0x1 ∧
    decodeWord 0xF30A = .ldVxK 0x3 := by decide

theorem test_decode_timers :
    decodeWord 0xF407 = .ldVxDt 0x4 ∧ decodeWord 0xF015 = .ldDtVx 0x0 ∧
    decodeWord 0xF018 = .ldStVx 0x0 := by decide

theorem test_decode_memory :
    decodeWord 0xF21E = .addIVx 0x2 ∧ decodeWord 0xF029 = .ldFVx 0x0 ∧
    decodeWord 0xF033 = .ldBVx 0x0 ∧ decodeWord 0xF255 = .ldMemVx 0x2 ∧
    decodeWord 0xF265 = .ldVxMem 0x2 := by decide

theorem test_decode_unknown :
    [0x0000, 0x0123, 0x00E1, 0x00FE, 0x8008, 0x812F, 0x8ABD, 0xE19F, 0xE000, 0xF075, 0xF000, 0xF1FF].all
      (fun w => decodeWord w == .unknown w) = true := by decide

/-- The more significant byte comes first (R41), and a lone byte is no instruction. -/
theorem test_decode_bytes :
    decode [0x6A, 0x3C, 0x77] = .ok (.ldVxKk 0xA 0x3C, [0x77]) ∧ decode [0x6A] = .error .truncated := by
  exact ⟨rfl, rfl⟩

theorem test_decodeTableWord :
    decodeTableWord 16 0xD125 = some (.drwVxVyN 0x1 0x2 0x5) ∧
    decodeTableWord 16 0x8128 = some (.unknown 0x8128) := by decide

/-! ## One cycle -/

/-- `g` of the state after one cycle on opcode `op`, from the reset state changed by `f`; the inputs are no key
and 0 unless `f` gives others. -/
def after {α : Type} (op : Nat) (f : State → State) (g : State → α) : Option α :=
  match step ((f (State.reset.withInputs 0 0)).withFetchWord 16 op) with
  | .next t => some (g t)
  | _ => none

/-- The reset state with V1 and V2 given. -/
def v12 (a b : Byte) (s : State) : State := (s.setReg 1 a).setReg 2 b

/-- UN1. -/
theorem test_unknown : after 0x8128 (fun s => { s with dt := 7 })
    (fun t => (t.pc, t.dt, t.mode, t.flt)) = some (0x202, 6, .running, none) := by decide

/-- CF2. -/
theorem test_jp : after 0x1200 id (·.pc) = some 0x200 := by decide

/-- CF10. -/
theorem test_jpV0 : after 0xBFFF (·.setReg 0 0xFF) (fun t => (t.pc, t.flt)) = some (0x10FE, none) := by decide

/-- CF5. -/
theorem test_call_sixteenth : after 0x2300 (fun s => { s with sp := 15 })
    (fun t => (t.stack[15], t.sp, t.pc)) = some (0x200, 16, 0x300) := by decide

/-- CF6. -/
theorem test_call_full : after 0x2300 (fun s => { s with sp := 16, dt := 5 })
    (fun t => (t.flt, t.sp, t.pc, t.dt)) = some (some .stackOverflow, 16, 0x200, 5) := by decide

/-- CF7. -/
theorem test_ret : after 0x00EE (fun s => { s with sp := 1, stack := s.stack.set 0 0x204, pc := 0x212 })
    (fun t => (t.sp, t.pc)) = some (0, 0x206) := by decide

/-- CF8, TM9. -/
theorem test_ret_empty : after 0x00EE (fun s => { s with dt := 5 })
    (fun t => (t.flt, t.pc, t.dt)) = some (some .stackUnderflow, 0x200, 5) := by decide

/-- CF11. -/
theorem test_seVxKk_skips : after 0x3100 (fun s => { s with pc := 0x208 }) (·.pc) = some 0x20C := by decide

/-- CF20. -/
theorem test_seVxKk_at_top : after 0x3100 (fun s => { s with pc := 0xFFE })
    (fun t => (t.pc, t.flt)) = some (0x1002, none) := by decide

/-- CF13. -/
theorem test_sneVxKk_skips : after 0x4211 (fun s => { s.setReg 2 0x10 with pc := 0x300 })
    (·.pc) = some 0x304 := by decide

/-- CF14. -/
theorem test_sneVxKk_falls : after 0x4211 (fun s => { s.setReg 2 0x11 with pc := 0x300 })
    (·.pc) = some 0x302 := by decide

/-- CF15. -/
theorem test_seVxVy_skips : after 0x5340 (fun s => (s.setReg 3 0x7F).setReg 4 0x7F)
    (·.pc) = some 0x204 := by decide

/-- CF16. -/
theorem test_seVxVy_falls : after 0x5340 (fun s => (s.setReg 3 0x7F).setReg 4 0x80)
    (·.pc) = some 0x202 := by decide

/-- CF18. -/
theorem test_sneVxVy_skips : after 0x9340 (fun s => (s.setReg 3 1).setReg 4 2)
    (·.pc) = some 0x204 := by decide

/-- CF19. -/
theorem test_sneVxVy_same : after 0x9330 id (·.pc) = some 0x202 := by decide

/-- AL1, S1. -/
theorem test_ldVxKk : after 0x6A3C id (fun t => (t.reg 0xA, t.pc)) = some (0x3C, 0x202) := by decide

/-- AL4. -/
theorem test_addVxKk_no_carry : after 0x7101 (v12 0xFF 0)
    (fun t => (t.reg 1, t.reg 0xF)) = some (0x00, 0x00) := by decide

/-- AL5. -/
theorem test_ldVxVy : after 0x8120 (v12 0 0x9C) (·.reg 1) = some 0x9C := by decide

/-- AL6. -/
theorem test_or : after 0x8121 (fun s => (v12 0xF0 0x0F s).setReg 0xF 1)
    (fun t => (t.reg 1, t.reg 0xF)) = some (0xFF, 0x01) := by decide

/-- AL7. -/
theorem test_and : after 0x8122 (v12 0xF5 0x3C) (·.reg 1) = some 0x34 := by decide

/-- AL8. -/
theorem test_xor : after 0x8123 (v12 0xFF 0x0F) (·.reg 1) = some 0xF0 := by decide

/-- AL11. -/
theorem test_add_carry : after 0x8124 (v12 0xFF 0xFF)
    (fun t => (t.reg 1, t.reg 0xF)) = some (0xFE, 0x01) := by decide

/-- AL13: the result stands in VF. -/
theorem test_add_into_vf : after 0x8F14 (fun s => (s.setReg 0xF 0xF0).setReg 1 0x20)
    (·.reg 0xF) = some 0x10 := by decide

/-- AL17: equality is no strict comparison. -/
theorem test_sub_equal : after 0x8125 (fun s => (v12 7 7 s).setReg 0xF 9)
    (fun t => (t.reg 1, t.reg 0xF)) = some (0x00, 0x00) := by decide

/-- AL20: the old VF is the subtrahend. -/
theorem test_sub_of_vf : after 0x81F5 (fun s => (s.setReg 1 5).setReg 0xF 1)
    (fun t => (t.reg 1, t.reg 0xF)) = some (0x04, 0x01) := by decide

/-- AL22: V[y] is ignored. -/
theorem test_shr : after 0x8126 (v12 0x04 0xFF)
    (fun t => (t.reg 1, t.reg 0xF)) = some (0x02, 0x00) := by decide

/-- AL25. -/
theorem test_shr_vf : after 0x8F06 (·.setReg 0xF 3) (·.reg 0xF) = some 0x01 := by decide

/-- AL26. -/
theorem test_subn : after 0x8127 (v12 3 5)
    (fun t => (t.reg 1, t.reg 0xF)) = some (0x02, 0x01) := by decide

/-- AL27. -/
theorem test_subn_wraps : after 0x8127 (v12 5 3)
    (fun t => (t.reg 1, t.reg 0xF)) = some (0xFE, 0x00) := by decide

/-- AL29. -/
theorem test_shl : after 0x810E (v12 0x81 0)
    (fun t => (t.reg 1, t.reg 0xF)) = some (0x02, 0x01) := by decide

/-- AL32. -/
theorem test_shl_vf : after 0x8F0E (·.setReg 0xF 0x81) (·.reg 0xF) = some 0x02 := by decide

/-- AL33. -/
theorem test_rnd : after 0xC10F (·.withInputs 0 0xB7) (·.reg 1) = some 0x07 := by decide

/-- ME2. -/
theorem test_ldINnn : after 0xAFFF id (fun t => (t.i, t.pc)) = some (0xFFF, 0x202) := by decide

/-- ME4. -/
theorem test_addIVx : after 0xF21E (fun s => { v12 0 1 s with i := 0xFFF })
    (fun t => (t.i, t.reg 0xF, t.flt)) = some (0x1000, 0, none) := by decide

/-- ME5. -/
theorem test_addIVx_wraps : after 0xF11E (fun s => { v12 1 0 s with i := 0xFFFF }) (·.i) = some 0 := by decide

/-- ME9. -/
theorem test_ldFVx_low_digit : after 0xF029 (·.setReg 0 0x1A) (·.i) = some 0x082 := by decide

/-- ME12. -/
theorem test_ldBVx : after 0xF033 (fun s => { s.setReg 0 0xFF with i := 0xFFD })
    (fun t => (Memory.readBytes t.mem 0xFFD 3, t.i)) = some ([2, 5, 5], 0xFFD) := by decide

/-- ME13. -/
theorem test_ldBVx_outside : after 0xF033 (fun s => { s.setReg 0 0xFF with i := 0xFFE })
    (fun t => (t.flt, Memory.readBytes t.mem 0xFFE 2, t.pc)) = some (some .memBounds, [0, 0], 0x200) := by decide

/-- ME15. -/
theorem test_ldMemVx : after 0xF255 (fun s => { (v12 0x22 0x33 s).setReg 0 0x11 with i := 0x400 })
    (fun t => (Memory.readBytes t.mem 0x400 4, t.i)) = some ([0x11, 0x22, 0x33, 0], 0x400) := by decide

/-- ME18. -/
theorem test_ldMemVx_outside : after 0xF255 (fun s => { (v12 0x22 0x33 s).setReg 0 0x11 with i := 0xFFE })
    (fun t => (t.flt, Memory.readBytes t.mem 0xFFE 2, t.pc)) = some (some .memBounds, [0, 0], 0x200) := by decide

/-- ME20. -/
theorem test_ldVxMem : after 0xFF65 (fun s => { s.boot [] with i := 0x050 })
    (·.v.toList) = some [0xF0, 0x90, 0x90, 0x90, 0xF0, 0x20, 0x60, 0x20, 0x20, 0x70,
      0xF0, 0x10, 0xF0, 0x80, 0xF0, 0xF0] := by decide

/-- ME21. -/
theorem test_ldVxMem_outside : after 0xF165 (fun s => { s with i := 0xFFF })
    (fun t => (t.flt, t.pc)) = some (some .memBounds, 0x200) := by decide

/-- GR1. -/
theorem test_cls : after 0x00E0
    (fun s => { s with fb := Vector.replicate 32 (Vector.replicate 64 true) })
    (·.fb) = some blankScreen := by decide

/-- GR4: a sprite that crosses both edges; some of its lit pixels, and dark ones beside them. -/
theorem test_drw_wraps : after 0xD125 (fun s => { v12 0x3E 0x1E (s.boot []) with i := 0x082 })
    (fun t => ([pixel t.fb 30 62, pixel t.fb 30 1, pixel t.fb 31 62, pixel t.fb 31 1, pixel t.fb 0 63,
      pixel t.fb 2 1], [pixel t.fb 30 2, pixel t.fb 31 63, pixel t.fb 1 0, pixel t.fb 3 1], t.reg 0xF)) =
      some ([true, true, true, true, true, true], [false, false, false, false], 0) := by decide

/-- GR9. -/
theorem test_drw_outside : after 0xD015 (fun s => { s.setReg 0xF 7 with i := 0xFFC })
    (fun t => (t.flt, t.reg 0xF, t.pc)) = some (some .memBounds, 7, 0x200) := by decide

/-- KY5: the low digit selects the key. -/
theorem test_skp : after 0xE19E (fun s => (s.setReg 1 0x15).withInputs 0x0020 0) (·.pc) = some 0x204 := by decide

/-- KY4. -/
theorem test_sknp : after 0xE1A1 (fun s => (s.setReg 1 5).withInputs 0xFFDF 0) (·.pc) = some 0x204 := by decide

/-- KY10. -/
theorem test_ldVxK_waits : after 0xF30A (fun s => { s.setReg 3 0x55 with dt := 2, st := 1 })
    (fun t => (t.pc, t.reg 3, t.mode, t.dt, t.st)) = some (0x200, 0x55, .awaitingKey, 1, 0) := by decide

/-- KY7, from a core that was waiting. -/
theorem test_ldVxK_completes : after 0xF30A
    (fun s => { s.withInputs 0x0280 0 with mode := .awaitingKey })
    (fun t => (t.pc, t.reg 3, t.mode)) = some (0x202, 0x07, .running) := by decide

/-- TM1. -/
theorem test_ldVxDt : after 0xF407 (fun s => { s with dt := 0x2A })
    (fun t => (t.reg 4, t.dt)) = some (0x2A, 0x29) := by decide

/-- TM3. -/
theorem test_ldDtVx : after 0xF015 (·.setReg 0 3) (fun t => (t.dt, t.pc)) = some (2, 0x202) := by decide

/-- TM7. -/
theorem test_ldStVx : after 0xF018 (·.setReg 0 2) (fun t => (t.stOut, t.dt)) = some (1, 0) := by decide

/-! ## Cycle, reset and boot -/

/-- CF3: pc = 0xFFF is no error until it is fetched from. -/
theorem test_pcBounds :
    (match step { State.reset with pc := 0xFFF } with
      | .next t => some (t.flt, t.pc)
      | _ => none) = some (some .pcBounds, 0xFFF) := by decide

/-- BT1. -/
theorem test_boot :
    Memory.readBytes (State.reset.boot [0x12, 0x00]).mem 0x04F 7 = [0, 0xF0, 0x90, 0x90, 0x90, 0xF0, 0x20] ∧
    Memory.readBytes (State.reset.boot [0x12, 0x00]).mem 0x1FF 4 = [0, 0x12, 0, 0] := by decide

/-- BT4: an odd byte pairs with a zero. -/
theorem test_boot_odd : (State.reset.boot [0x12]).fetchOpcode = some 0x1200 := by decide

/-- R47: the last glyph of the font. -/
theorem test_font_last :
    Memory.readBytes (State.reset.boot []).mem 0x09B 6 = [0xF0, 0x80, 0xF0, 0x80, 0x80, 0] := by decide

/-- An opcode placed by the loader is the one the next cycle fetches, at reset and at the last address. -/
theorem test_withFetchWord :
    (State.reset.withFetchWord 16 0xD125).fetchOpcode = some 0xD125 ∧
    ({ State.reset with pc := 0xFFE }.withFetchWord 16 0x6A3C).fetchOpcode = some 0x6A3C := by decide

/-! ## Witnesses: states and operands that meet the hypotheses of each statement, at the ends of their ranges -/

/-- The state at the last address from which an instruction can be fetched. -/
def lastPc : State := { State.reset with pc := 0xFFE }

/-- The reset state with an opcode where it is fetched. -/
def holding (op : Nat) : State := State.reset.withFetchWord 16 op

/-- Whether a state executes an instruction, by evaluation. -/
theorem executesInstr_of (s : State) (i : Instr) (op : Word) (h0 : s.flt = none) (h1 : s.fetchOpcode = some op)
    (h2 : decodeWord op = i) : ExecutesInstr s i := ⟨h0, op, h1, h2⟩

/-- A state that fetches an opcode executes nothing but its instruction. -/
theorem not_executesInstr_of (s : State) (i : Instr) (op : Word) (h1 : s.fetchOpcode = some op)
    (h2 : decodeWord op ≠ i) : ¬ ExecutesInstr s i := by
  rintro ⟨-, op', h, rfl⟩
  rw [h1] at h
  cases h
  exact h2 rfl

theorem witness_ReturnPopsCaller :
    State.reset.sp.val = 0 ∧
    (∃ (s : State) (j : Fin 16), j.val = 0 ∧ s.sp.val = j.val + 1 ∧ s.stack[j].toNat ≤ 0xFFE) ∧
    ∃ (s : State) (j : Fin 16), j.val = 15 ∧ s.sp.val = j.val + 1 ∧ s.stack[j].toNat = 0xFFE :=
  ⟨by decide, ⟨{ State.reset with sp := 1 }, 0, by decide⟩,
    ⟨{ State.reset with sp := 16, stack := Vector.replicate 16 0xFFE }, 15, by decide⟩⟩

theorem witness_CallPushesOwnAddress :
    ({ State.reset with sp := 16 } : State).sp.val = 16 ∧ State.reset.sp.val < 16 ∧
    ({ State.reset with sp := 15 } : State).sp.val < 16 := by decide

theorem witness_SkipsOnImmediate : lastPc.pc.toNat ≤ 0xFFE ∧ lastPc.reg 1 = 0 ∧ lastPc.reg 1 ≠ 1 := by decide

theorem witness_SkipsOnRegisters :
    (lastPc.setReg 1 5).pc.toNat ≤ 0xFFE ∧ (lastPc.setReg 1 5).reg 1 ≠ (lastPc.setReg 1 5).reg 2 ∧
    (lastPc.setReg 1 5).reg 3 = (lastPc.setReg 1 5).reg 2 := by decide

theorem witness_UnknownOnlyAdvances : lastPc.pc.toNat ≤ 0xFFE := by decide

theorem witness_UnknownCycleIsNoOp :
    (State.reset.flt = none ∧ State.reset.fetchOpcode = some 0 ∧ isUnknownWord 0 = true) ∧
    lastPc.flt = none ∧ lastPc.fetchOpcode = some 0 := by decide

theorem witness_LoadImmediateAndCopy : lastPc.pc.toNat ≤ 0xFFE := by decide

theorem witness_AddImmediateWraps : lastPc.pc.toNat ≤ 0xFFE := by decide

theorem witness_LogicBitByBit : lastPc.pc.toNat ≤ 0xFFE := by decide

theorem witness_AddRegistersCarry : lastPc.pc.toNat ≤ 0xFFE ∧ (0xE : Nibble) ≠ 0xF := by decide

theorem witness_SubtractStrictlyGreaterFlag : lastPc.pc.toNat ≤ 0xFFE ∧ (0xE : Nibble) ≠ 0xF := by decide

theorem witness_ReverseSubtractStrictlyGreaterFlag :
    lastPc.pc.toNat ≤ 0xFFE ∧ (0xE : Nibble) ≠ 0xF := by decide

theorem witness_ShiftRightHalves : lastPc.pc.toNat ≤ 0xFFE ∧ (0xE : Nibble) ≠ 0xF := by decide

theorem witness_ShiftLeftDoubles : lastPc.pc.toNat ≤ 0xFFE ∧ (0xE : Nibble) ≠ 0xF := by decide

theorem witness_RandomByteMasked : lastPc.pc.toNat ≤ 0xFFE := by decide

theorem witness_LoadIndex : lastPc.pc.toNat ≤ 0xFFE := by decide

theorem witness_AddIndexWraps : lastPc.pc.toNat ≤ 0xFFE := by decide

theorem witness_FontAddressOfLowDigit : lastPc.pc.toNat ≤ 0xFFE := by decide

/-- The state at the last fetchable address with I given. -/
def lastPcI (i : Word) : State := { lastPc with i := i }

theorem witness_BcdStoresDigits :
    ((lastPcI 0xFFE).pc.toNat ≤ 0xFFE ∧ Memory.wf (lastPcI 0xFFE).mem ∧ 0xFFF < (lastPcI 0xFFE).i.toNat + 2) ∧
    (lastPcI 0xFFD).i.toNat + 2 ≤ 0xFFF ∧ 0xFFF < (lastPcI 0xFFFF).i.toNat + 2 := by decide

theorem witness_BlockStoreCopiesRegisters :
    ((lastPcI 0xFFE).pc.toNat ≤ 0xFFE ∧ Memory.wf (lastPcI 0xFFE).mem ∧
      0xFFF < (lastPcI 0xFFE).i.toNat + (2 : Nibble).toNat) ∧
    (lastPcI 0xFFE).i.toNat + (1 : Nibble).toNat ≤ 0xFFF ∧ (0 : Nibble).toNat ≤ (1 : Nibble).toNat ∧
    0xFFF < (lastPcI 0x1000).i.toNat + (0 : Nibble).toNat := by decide

theorem witness_BlockLoadCopiesMemory :
    ((lastPcI 0xFFF).pc.toNat ≤ 0xFFE ∧ 0xFFF < (lastPcI 0xFFF).i.toNat + (1 : Nibble).toNat) ∧
    (lastPcI 0xFFF).i.toNat + (0 : Nibble).toNat ≤ 0xFFF ∧
    (lastPcI 0xFF0).i.toNat + (0xF : Nibble).toNat ≤ 0xFFF := by decide

theorem witness_ClearScreenBlanks : lastPc.pc.toNat ≤ 0xFFE := by decide

theorem witness_DrawTogglesLitPixels :
    ((lastPcI 0x1000).pc.toNat ≤ 0xFFE ∧
      0 < (1 : Nibble).toNat ∧ 0xFFF < (lastPcI 0x1000).i.toNat + (1 : Nibble).toNat - 1) ∧
    0xFFF < (lastPcI 0xFFC).i.toNat + (5 : Nibble).toNat - 1 ∧
    (lastPcI 0xFFC).i.toNat + (4 : Nibble).toNat - 1 ≤ 0xFFF ∧
    (lastPcI 0xFFFF).i.toNat > 0xFFF ∧ (0 : Nibble).toNat = 0 := by decide

theorem witness_DrawTwiceRestores :
    (1 : Nibble) ≠ 0xF ∧ (2 : Nibble) ≠ 0xF ∧
    (lastPcI 0xFFB).i.toNat + (5 : Nibble).toNat ≤ 0x1000 := by decide

theorem witness_KeySkips : lastPc.pc.toNat ≤ 0xFFE := by decide

theorem witness_KeyWaitTakesLeastKey :
    lastPc.pc.toNat ≤ 0xFFE ∧ lastPc.k = 0 ∧ ({ lastPc with k := 0x8000 } : State).k ≠ 0 := by decide

theorem witness_TimerAccess : lastPc.pc.toNat ≤ 0xFFE := by decide

theorem witness_TimerAccessCycle :
    ExecutesInstr (holding 0xF407) (.ldVxDt 4) ∧ ExecutesInstr (holding 0xF015) (.ldDtVx 0) ∧
    ExecutesInstr (holding 0xFF18) (.ldStVx 0xF) :=
  ⟨executesInstr_of _ _ 0xF407 (by decide) (by decide) (by decide),
    executesInstr_of _ _ 0xF015 (by decide) (by decide) (by decide),
    executesInstr_of _ _ 0xFF18 (by decide) (by decide) (by decide)⟩

theorem witness_FetchIsBigEndian : lastPc.pc.toNat ≤ 0xFFE := by decide

/-- One cycle that raises a fault and one that does not. -/
theorem witness_StepRunsDecoded :
    (∃ u, (holding 0x00EE).flt = none ∧ (holding 0x00EE).pc.toNat ≤ 0xFFE ∧
      decode [Memory.read (holding 0x00EE).mem (holding 0x00EE).pc.toNat,
        Memory.read (holding 0x00EE).mem ((holding 0x00EE).pc.toNat + 1)] = .ok (.ret, []) ∧
      exec .ret { holding 0x00EE with k := (holding 0x00EE).keysIn } = .next u ∧
      u.flt = some .stackUnderflow) ∧
    ∃ u, lastPc.flt = none ∧ lastPc.pc.toNat ≤ 0xFFE ∧
      decode [Memory.read lastPc.mem lastPc.pc.toNat, Memory.read lastPc.mem (lastPc.pc.toNat + 1)] =
        .ok (.unknown 0, []) ∧
      exec (.unknown 0) { lastPc with k := lastPc.keysIn } = .next u ∧ u.flt = none :=
  ⟨⟨_, by decide, by decide, rfl, rfl, rfl⟩, ⟨_, by decide, by decide, rfl, rfl, rfl⟩⟩

theorem witness_StoppedCoreIgnoresStep :
    ({ State.reset with flt := some .romTooLarge } : State).flt = some .romTooLarge := by decide

theorem witness_PcBoundsAtFetch :
    ({ State.reset with pc := 0xFFF } : State).flt = none ∧
    0xFFE < ({ State.reset with pc := 0xFFF } : State).pc.toNat := by decide

theorem witness_FaultsArePreciseAndExact :
    faultCause { State.reset with pc := 0xFFF } = some .pcBounds ∧
    faultCause (holding 0x00EE) = some .stackUnderflow ∧
    faultCause { holding 0x2300 with sp := 16 } = some .stackOverflow ∧
    faultCause { holding 0xD001 with i := 0x1000 } = some .memBounds ∧
    faultCause { holding 0xF033 with i := 0xFFE } = some .memBounds ∧
    faultCause { holding 0xF155 with i := 0xFFF } = some .memBounds ∧
    faultCause { holding 0xF065 with i := 0x1000 } = some .memBounds ∧
    faultCause { holding 0xD000 with i := 0xFFFF } = none ∧ State.reset.flt = none := by decide

/-- A cycle that writes each timer, and one that writes neither. -/
theorem witness_TimersTickEveryCycle :
    (∃ t, lastPc.flt = none ∧ step lastPc = .next t ∧ t.flt = none ∧
      (∀ x, ¬ ExecutesInstr lastPc (.ldDtVx x)) ∧ ∀ x, ¬ ExecutesInstr lastPc (.ldStVx x)) ∧
    (∃ t, (holding 0xF015).flt = none ∧ step (holding 0xF015) = .next t ∧ t.flt = none ∧
      ExecutesInstr (holding 0xF015) (.ldDtVx 0)) ∧
    ∃ t, (holding 0xF018).flt = none ∧ step (holding 0xF018) = .next t ∧ t.flt = none ∧
      ExecutesInstr (holding 0xF018) (.ldStVx 0) := by
  refine ⟨⟨_, rfl, rfl, rfl, fun x => ?_, fun x => ?_⟩, ⟨_, rfl, rfl, rfl, ?_⟩, ⟨_, rfl, rfl, rfl, ?_⟩⟩
  · exact not_executesInstr_of _ _ 0 (by decide) (by decide +revert)
  · exact not_executesInstr_of _ _ 0 (by decide) (by decide +revert)
  · exact executesInstr_of _ _ 0xF015 (by decide) (by decide) (by decide)
  · exact executesInstr_of _ _ 0xF018 (by decide) (by decide) (by decide)

/-- A cycle that waits, with what the equivalence asks of it, and one that does not. -/
theorem witness_ModeAtEndOfCycle :
    (∃ t, step ((holding 0xF30A).withInputs 0 0) = .next t ∧ t.flt = none ∧ t.mode = .awaitingKey) ∧
    ∃ t, step ((holding 0xF30A).withInputs 0x8000 0) = .next t ∧ t.flt = none ∧ t.mode = .running :=
  ⟨⟨_, rfl, rfl, rfl⟩, ⟨_, rfl, rfl, rfl⟩⟩

/-- A state at the limits of the invariant, which a step takes to a fault, and a waiting state. -/
theorem witness_StepKeepsInvariant :
    (∃ s t, s.sp = 16 ∧ s.pc = 0x10FE ∧ Inv s ∧ step s = .next t ∧ t.flt = some .pcBounds) ∧
    (∃ s t, s.mode = .awaitingKey ∧ Inv s ∧ step s = .next t) ∧
    ∃ s t, Inv s ∧ s.flt = some .memBounds ∧ step s = .next t := by
  refine ⟨⟨{ State.reset with sp := 16, pc := 0x10FE, stack := Vector.replicate 16 0xFFE }, _, rfl, rfl,
      ⟨by decide, by decide, by decide, fun h => nomatch h⟩, rfl, rfl⟩,
    ⟨{ holding 0xF30A with mode := .awaitingKey }, _, rfl,
      ⟨by decide, by decide, by decide, fun _ => ⟨3, ?_⟩⟩, rfl⟩,
    ⟨{ State.reset with flt := some .memBounds }, _, ⟨by decide, by decide, by decide, fun h => nomatch h⟩,
      rfl, rfl⟩⟩
  exact executesInstr_of _ _ 0xF30A (by decide) (by decide) (by decide)

theorem witness_BootLoadsFontAndRom :
    (List.replicate 3584 (0x12 : Byte)).length ≤ 3584 ∧
    (∃ rest, List.replicate 3584 (0x12 : Byte) = 0x12 :: 0x12 :: rest) ∧
    ((0x04F < 0x050 ∨ 0x0A0 ≤ 0x04F) ∧ (0x04F < 0x200 ∨ 0x200 + 3584 ≤ 0x04F)) ∧
    ((0xFFF < 0x050 ∨ 0x0A0 ≤ 0xFFF) ∧ (0xFFF < 0x200 ∨ 0x200 + 3583 ≤ 0xFFF)) :=
  ⟨Nat.le_of_eq List.length_replicate, ⟨List.replicate 3582 0x12, rfl⟩, by decide, by decide⟩

theorem witness_BootRejectsOversizeRom : 3584 < (List.replicate 3585 (0 : Byte)).length :=
  Nat.lt_of_lt_of_eq (by decide : 3584 < 3585) List.length_replicate.symm

theorem witness_DecodeEncodeRoundTrip :
    (Instr.unknown 0x8128).wf = true ∧ (Instr.drwVxVyN 0xF 0xF 0xF).wf = true := by decide

theorem witness_OpcodeMapAgreesWithDecode :
    opcodeRows[0]? = some ⟨0x00E0, 0xF0FF⟩ ∧ opcodeRows[33]? = some ⟨0xF065, 0xF0FF⟩ := by decide

theorem witness_VfIsNotReadImplicitly :
    (¬ namesReg 0xF (.ldVxMem 0xE) ∧ ∃ t, exec (.ldVxMem 0xE) State.reset = .next t) ∧
    ¬ namesReg 0xF (.addVxVy 0xE 0x0) ∧ ∃ t, exec (.addVxVy 0xE 0x0) State.reset = .next t :=
  ⟨⟨by simp [namesReg], _, rfl⟩, by simp [namesReg], _, rfl⟩

theorem witness_NothingDependsOnFramebuffer :
    ∃ t, exec (.drwVxVyN 0 1 5) State.reset = .next t := ⟨_, rfl⟩

/-- For each element an instruction that changes it. -/
theorem witness_OnlyNamedInstructionsWrite :
    (∃ t, exec (.ldINnn 0x300) State.reset = .next t ∧ t.i ≠ State.reset.i) ∧
    (∃ t, exec (.call 0x300) State.reset = .next t ∧ t.stack ≠ State.reset.stack ∧ t.sp ≠ State.reset.sp) ∧
    (∃ t, exec (.ldDtVx 1) (State.reset.setReg 1 5) = .next t ∧ t.dt ≠ State.reset.dt) ∧
    (∃ t, exec (.ldStVx 1) (State.reset.setReg 1 5) = .next t ∧ t.st ≠ State.reset.st) ∧
    (∃ t, exec .cls { State.reset with fb := Vector.replicate 32 (Vector.replicate 64 true) } = .next t ∧
      t.fb ≠ Vector.replicate 32 (Vector.replicate 64 true)) ∧
    (∃ t, exec (.ldMemVx 1) (State.reset.setReg 1 5) = .next t ∧ t.mem ≠ State.reset.mem) ∧
    (∃ t, exec (.ldVxK 1) State.reset = .next t ∧ t.mode ≠ State.reset.mode) ∧
    ∃ t, exec .ret State.reset = .next t ∧ t.flt ≠ State.reset.flt :=
  ⟨⟨_, rfl, by decide⟩, ⟨_, rfl, by decide, by decide⟩, ⟨_, rfl, by decide⟩, ⟨_, rfl, by decide⟩,
    ⟨_, rfl, by decide⟩, ⟨_, rfl, by decide⟩, ⟨_, rfl, by decide⟩, ⟨_, rfl, by decide⟩⟩

theorem witness_StoresAreSeenByFetch :
    Memory.wf (lastPcI 0xFFE).mem ∧ (lastPcI 0xFFE).i.toNat + (1 : Nibble).toNat ≤ 0xFFF ∧
    (1 : Nibble).toNat = (0 : Nibble).toNat + 1 ∧ (1 : Nibble).toNat ≤ (1 : Nibble).toNat := by decide

/-- One cycle on zeroed memory, which writes neither timer. -/
theorem witness_TimersCountCycles :
    ∃ t, cycles 1 State.reset = .next t ∧ t.flt = none ∧
      CyclesAvoid (fun i => ∃ x, i = .ldDtVx x) 1 State.reset ∧
      CyclesAvoid (fun i => ∃ x, i = .ldStVx x) 1 State.reset := by
  refine ⟨_, rfl, rfl, ⟨?_, fun _ _ => trivial⟩, ⟨?_, fun _ _ => trivial⟩⟩ <;>
    rintro i ⟨-, op, h, rfl⟩ ⟨x, hx⟩ <;>
    rw [show State.reset.fetchOpcode = some 0 by decide] at h <;>
    cases h <;>
    exact absurd hx (by decide +revert)

/-- One state for each value of the fault latch. -/
theorem witness_OutputsShowState :
    State.reset.flt = none ∧
    [Fault.pcBounds, .stackUnderflow, .stackOverflow, .memBounds, .romTooLarge].all
      (fun f => ({ State.reset with flt := some f } : State).flt == some f) = true ∧
    (31 : Fin 32).val * 64 + (63 : Fin 64).val = (2047 : Fin 2048).val := by decide

end Sys2Proof.Tests
end

section
/-!
SUPPORT. What each instruction that checks something can answer, once; what an update of one register
leaves alone; and the step as an equation in each of its cases.
-/

namespace Sys2Proof.Machine

/-- An outcome is the next state of at most one state. -/
theorem next_unique {o : Host.Outcome State Fault Refusal} {t u : State}
    (h : o = .next t) (e : o = .next u) : t = u :=
  Host.Outcome.next.inj (h.symm.trans e)

section Cases

variable {s t : State} {x y n : Nibble} {nnn : Addr12}

theorem execRet_cases (h : execRet s = .next t) :
    (s.sp.val = 0 ∧ t = s.raise .stackUnderflow) ∨
    ∃ _ : s.sp.val ≠ 0, t = State.jump { s with sp := ⟨s.sp.val - 1, by omega⟩ }
      (s.stack[s.sp.val - 1]'(by omega) + 2) := by
  by_cases h0 : s.sp.val = 0
  · exact .inl ⟨h0, next_unique h (execRet_of_empty s h0)⟩
  · exact .inr ⟨h0, next_unique h (execRet_of_active s h0)⟩

theorem execCall_cases (h : execCall nnn s = .next t) :
    (s.sp.val = 16 ∧ t = s.raise .stackOverflow) ∨
    ∃ hr : s.sp.val < 16, t = State.jump
      { s with stack := s.stack.set s.sp.val s.pc hr, sp := ⟨s.sp.val + 1, Nat.succ_lt_succ hr⟩ }
      (zext16 nnn) := by
  by_cases hf : s.sp.val = 16
  · exact .inl ⟨hf, next_unique h (execCall_of_full s nnn hf)⟩
  · have hr : s.sp.val < 16 := by omega
    exact .inr ⟨hr, next_unique h (execCall_of_room s nnn hr)⟩

theorem execDrwVxVyN_cases (h : execDrwVxVyN x y n s = .next t) :
    (inMemory s.i.toNat n.toNat = false ∧ t = s.raise .memBounds) ∨
    (inMemory s.i.toNat n.toNat = true ∧ t = State.advance { s.setReg flagReg 0 with
      fb := drawRows s.fb (s.reg x) (s.reg y) 0 (Memory.readBytes s.mem s.i.toNat n.toNat) } 2) := by
  cases hb : inMemory s.i.toNat n.toNat with
  | false => exact .inl ⟨rfl, next_unique h (execDrwVxVyN_of_outside s x y n hb)⟩
  | true => exact .inr ⟨rfl, next_unique h (execDrwVxVyN_of_inside s x y n hb)⟩

theorem execLdBVx_cases (h : execLdBVx x s = .next t) :
    (inMemory s.i.toNat 3 = false ∧ t = s.raise .memBounds) ∨
    (inMemory s.i.toNat 3 = true ∧ t = State.advance
      { s with mem := Memory.writeBytes s.mem s.i.toNat (bcdDigits (s.reg x)) } 2) := by
  cases hb : inMemory s.i.toNat 3 with
  | false => exact .inl ⟨rfl, next_unique h (execLdBVx_of_outside s x hb)⟩
  | true => exact .inr ⟨rfl, next_unique h (execLdBVx_of_inside s x hb)⟩

theorem execLdMemVx_cases (h : execLdMemVx x s = .next t) :
    (inMemory s.i.toNat (x.toNat + 1) = false ∧ t = s.raise .memBounds) ∨
    (inMemory s.i.toNat (x.toNat + 1) = true ∧ t = State.advance
      { s with mem := Memory.writeBytes s.mem s.i.toNat (s.regsUpTo x) } 2) := by
  cases hb : inMemory s.i.toNat (x.toNat + 1) with
  | false => exact .inl ⟨rfl, next_unique h (execLdMemVx_of_outside s x hb)⟩
  | true => exact .inr ⟨rfl, next_unique h (execLdMemVx_of_inside s x hb)⟩

theorem execLdVxMem_cases (h : execLdVxMem x s = .next t) :
    (inMemory s.i.toNat (x.toNat + 1) = false ∧ t = s.raise .memBounds) ∨
    (inMemory s.i.toNat (x.toNat + 1) = true ∧
      t = (s.setRegsFrom0 (Memory.readBytes s.mem s.i.toNat (x.toNat + 1))).advance 2) := by
  cases hb : inMemory s.i.toNat (x.toNat + 1) with
  | false => exact .inl ⟨rfl, next_unique h (execLdVxMem_of_outside s x hb)⟩
  | true => exact .inr ⟨rfl, next_unique h (execLdVxMem_of_inside s x hb)⟩

theorem execLdVxK_cases (h : execLdVxK x s = .next t) :
    (leastKey s.k = none ∧ t = { s with mode := .awaitingKey }) ∨
    ∃ key, leastKey s.k = some key ∧
      t = State.advance { s.setReg x key with mode := .running } 2 := by
  cases hk : leastKey s.k with
  | none => exact .inl ⟨rfl, next_unique h (execLdVxK_of_none s x hk)⟩
  | some key => exact .inr ⟨key, rfl, next_unique h (execLdVxK_of_some s x key hk)⟩

end Cases

/-- An instruction that may raise answers a next state on both sides of its check (R193). -/
theorem State.orRaise_answers (s : State) (f : Fault) (r : Option State) :
    ∃ t, s.orRaise f r = .next t := by
  cases r
  · exact ⟨_, s.orRaise_none f⟩
  · exact ⟨_, s.orRaise_some _ f⟩

/-- No instruction answers a fault or a refusal of the model. -/
theorem exec_answers (i : Instr) (s : State) : ∃ t, exec i s = .next t := by
  cases i with
  | ret | call _ | drwVxVyN _ _ _ | ldBVx _ | ldMemVx _ | ldVxMem _ => exact s.orRaise_answers _ _
  | _ => exact ⟨_, rfl⟩

section RegisterUpdates

variable (s : State) {x y r : Nibble} (a b : Byte)

theorem State.setReg_setReg_same : (s.setReg x a).setReg x b = s.setReg x b := by
  simp [State.setReg]

theorem State.setReg_comm (h : x ≠ y) : (s.setReg x a).setReg y b = (s.setReg y b).setReg x a := by
  have hxy : x.toNat ≠ y.toNat := fun e => h (BitVec.eq_of_toNat_eq e)
  simp [State.setReg, Vector.set_comm _ _ hxy]

theorem State.reg_setReg_of_ne (h : x ≠ r) : (s.setReg r a).reg x = s.reg x := by
  rw [State.reg_setReg, if_neg h]

/-- The flag-writing instructions overwrite VF, whatever it held (R86). -/
theorem State.setFlagThenReg_setReg_flagReg (flag : Bool) :
    (s.setReg flagReg a).setFlagThenReg flag x b = s.setFlagThenReg flag x b := by
  rw [State.setFlagThenReg, State.setReg_setReg_same]
  rfl

theorem State.regsUpTo_setReg_of_lt (h : x.toNat < r.toNat) :
    (s.setReg r a).regsUpTo x = s.regsUpTo x := by
  simp only [State.regsUpTo, State.setReg_v, Vector.toList_set]
  exact List.take_set_of_le (Nat.succ_le_of_lt h)

/-- A block load below register r keeps an update of r. -/
theorem State.setRegsFrom0_setReg_of_le {bs : List Byte} (h : bs.length ≤ r.toNat) :
    (s.setReg r a).setRegsFrom0 bs = (s.setRegsFrom0 bs).setReg r a := by
  have hv : ((s.setReg r a).setRegsFrom0 bs).v = ((s.setRegsFrom0 bs).setReg r a).v := by
    ext j hj
    by_cases hr : r.toNat = j
    · subst hr
      simp [List.getElem?_eq_none h]
    · simp [Vector.getElem_set_ne _ _ hr]
  simpa [State.setRegsFrom0, State.setReg] using hv

end RegisterUpdates

section Step

variable (s : State)

theorem step_of_stopped {f : Fault} (h : s.flt = some f) : step s = .next s := by
  rw [step, h]

theorem step_of_fetch_none (h : s.flt = none) (hop : s.fetchOpcode = none) :
    step s = .next (s.raise .pcBounds) := by
  rw [step, h, hop]

theorem step_of_exec {op : Word} {u : State} (h : s.flt = none) (hop : s.fetchOpcode = some op)
    (he : exec (decodeWord op) s.latchKeys = .next u) :
    step s = .next (s.endCycle (decodeWord op) u) := by
  simp only [step, h, hop, he]
  rfl

/-- A cycle that was executed ends with the fault its instruction raised, or with none (R91). -/
@[simp] theorem State.endCycle_flt (i : Instr) (u : State) : (s.endCycle i u).flt = u.flt := by
  cases hf : u.flt with
  | none => rw [s.endCycle_of_none u i hf]; simpa using hf
  | some f => rw [s.endCycle_of_some u i f hf]; rfl

/-- A cycle leaves AwaitingKey only through `LD Vx,K` (R90). -/
theorem State.settleMode_awaitingKey {i : Instr} (h : (s.settleMode i).mode = .awaitingKey) :
    s.mode = .awaitingKey ∧ ∃ x, i = .ldVxK x := by
  cases i with
  | ldVxK x => exact ⟨h, x, rfl⟩
  | _ => cases h

end Step

end Sys2Proof.Machine
end

section
/-!
SUPPORT. Which elements an instruction writes, and which it does not read: O53, O52, O51, O50.
-/

namespace Sys2Proof.Machine

/-- Settles O53: every answer of an instruction is its operand state with the instruction's own fields
updated, or that state with FLT raised. -/
theorem onlyNamedInstructionsWrite : Obligations.OnlyNamedInstructionsWrite := by
  intro i s t h
  cases i with
  | ret => obtain ⟨_, rfl⟩ | ⟨_, rfl⟩ := execRet_cases h <;> simp
  | call nnn => obtain ⟨_, rfl⟩ | ⟨_, rfl⟩ := execCall_cases h <;> simp
  | drwVxVyN x y n => obtain ⟨_, rfl⟩ | ⟨_, rfl⟩ := execDrwVxVyN_cases h <;> simp
  | ldBVx x => obtain ⟨_, rfl⟩ | ⟨_, rfl⟩ := execLdBVx_cases h <;> simp
  | ldMemVx x => obtain ⟨_, rfl⟩ | ⟨_, rfl⟩ := execLdMemVx_cases h <;> simp
  | ldVxMem x => obtain ⟨_, rfl⟩ | ⟨_, rfl⟩ := execLdVxMem_cases h <;> simp
  | ldVxK x => obtain ⟨_, rfl⟩ | ⟨_, _, rfl⟩ := execLdVxK_cases h <;> simp
  | _ => obtain rfl := Host.Outcome.next.inj h; simp

/-- No instruction reads FB or MODE into anything else (R19, R21): with both replaced it answers the same state
but for the two. Neither depends on the other, and `LD Vx,K` writes MODE whatever it was. -/
theorem exec_of_fb_mode {i : Instr} {s t : State} (h : exec i s = .next t) (fb : Screen) (m : Mode) :
    ∃ fb' m', exec i { s with fb := fb, mode := m } = .next { t with fb := fb', mode := m' } ∧
      (fb = s.fb → fb' = t.fb) ∧ (m = s.mode → m' = t.mode) ∧ ∀ x, i = .ldVxK x → m' = t.mode := by
  cases i with
  | cls =>
    obtain rfl := Host.Outcome.next.inj h
    exact ⟨blankScreen, m, rfl, fun _ => rfl, id, nofun⟩
  | ret =>
    obtain ⟨h0, rfl⟩ | ⟨h0, rfl⟩ := execRet_cases h
    · exact ⟨fb, m, execRet_of_empty _ h0, id, id, nofun⟩
    · exact ⟨fb, m, execRet_of_active _ h0, id, id, nofun⟩
  | call nnn =>
    obtain ⟨hf, rfl⟩ | ⟨hr, rfl⟩ := execCall_cases h
    · exact ⟨fb, m, execCall_of_full _ nnn hf, id, id, nofun⟩
    · exact ⟨fb, m, execCall_of_room { s with fb := fb, mode := m } nnn hr, id, id, nofun⟩
  | drwVxVyN x y n =>
    obtain ⟨hb, rfl⟩ | ⟨hb, rfl⟩ := execDrwVxVyN_cases h
    · exact ⟨fb, m, execDrwVxVyN_of_outside _ x y n hb, id, id, nofun⟩
    · exact ⟨_, m, execDrwVxVyN_of_inside _ x y n hb, fun e => by rw [e]; rfl, id, nofun⟩
  | ldBVx x =>
    obtain ⟨hb, rfl⟩ | ⟨hb, rfl⟩ := execLdBVx_cases h
    · exact ⟨fb, m, execLdBVx_of_outside _ x hb, id, id, nofun⟩
    · exact ⟨fb, m, execLdBVx_of_inside _ x hb, id, id, nofun⟩
  | ldMemVx x =>
    obtain ⟨hb, rfl⟩ | ⟨hb, rfl⟩ := execLdMemVx_cases h
    · exact ⟨fb, m, execLdMemVx_of_outside _ x hb, id, id, nofun⟩
    · exact ⟨fb, m, execLdMemVx_of_inside _ x hb, id, id, nofun⟩
  | ldVxMem x =>
    obtain ⟨hb, rfl⟩ | ⟨hb, rfl⟩ := execLdVxMem_cases h
    · exact ⟨fb, m, execLdVxMem_of_outside _ x hb, id, id, nofun⟩
    · exact ⟨fb, m, execLdVxMem_of_inside _ x hb, id, id, nofun⟩
  | ldVxK x =>
    obtain ⟨hk, rfl⟩ | ⟨key, hk, rfl⟩ := execLdVxK_cases h
    · exact ⟨fb, .awaitingKey, execLdVxK_of_none _ x hk, id, fun _ => rfl, fun _ _ => rfl⟩
    · exact ⟨fb, .running, execLdVxK_of_some _ x key hk, id, fun _ => rfl, fun _ _ => rfl⟩
  | _ =>
    obtain rfl := Host.Outcome.next.inj h
    exact ⟨fb, m, rfl, id, id, nofun⟩

/-- Settles O52: the framebuffer half of `exec_of_fb_mode`, with MODE kept. -/
theorem nothingDependsOnFramebuffer : Obligations.NothingDependsOnFramebuffer := by
  intro i s t fb h
  obtain ⟨fb', m', he, -, hm, -⟩ := exec_of_fb_mode h fb s.mode
  obtain rfl := hm rfl
  exact ⟨fb', he⟩

/-- With MODE replaced an instruction answers the same state but for MODE, and the end of the cycle settles
MODE to the same value (R90). -/
theorem exec_of_mode {i : Instr} {s t : State} (h : exec i s = .next t) (m : Mode) :
    ∃ m', exec i { s with mode := m } = .next { t with mode := m' } ∧
      State.settleMode { t with mode := m' } i = t.settleMode i := by
  obtain ⟨fb', m', he, hfb, -, hm⟩ := exec_of_fb_mode h s.fb m
  obtain rfl := hfb rfl
  refine ⟨m', he, ?_⟩
  cases i with
  | ldVxK x =>
    obtain rfl := hm x rfl
    rfl
  | _ => rfl

/-- Cycles that differ in MODE alone, before and after the instruction, end alike where MODE is settled alike,
unless a fault returns each to the state it began in (R91). -/
theorem State.endCycle_of_mode (s u : State) (i : Instr) (m m' : Mode)
    (hsettle : State.settleMode { u with mode := m' } i = u.settleMode i) :
    State.endCycle { s with mode := m } i { u with mode := m' } =
      if (s.endCycle i u).flt = none then s.endCycle i u else { s.endCycle i u with mode := m } := by
  obtain hfu | ⟨f, hfu⟩ := u.flt.eq_none_or_eq_some
  · rw [if_pos (by simp [hfu]), s.endCycle_of_none u i hfu, ← hsettle]
    exact State.endCycle_of_none _ _ i hfu
  · rw [if_neg (by simp [hfu]), s.endCycle_of_some u i f hfu]
    exact State.endCycle_of_some _ _ i f hfu

/-- Settles O51: the two cycles take the same case of the step. -/
theorem modeDoesNotSteer : Obligations.ModeDoesNotSteer := by
  intro s m
  obtain hf | ⟨f, hf⟩ := s.flt.eq_none_or_eq_some
  · cases hop : s.fetchOpcode with
    | none =>
      exact ⟨s.raise .pcBounds, step_of_fetch_none s hf hop, step_of_fetch_none { s with mode := m } hf hop⟩
    | some op =>
      obtain ⟨u, hu⟩ := exec_answers (decodeWord op) s.latchKeys
      obtain ⟨m', hu', hsettle⟩ := exec_of_mode hu m
      exact ⟨_, step_of_exec s hf hop hu, (step_of_exec { s with mode := m } hf hop hu').trans
        (congrArg _ (State.endCycle_of_mode s u _ m m' hsettle))⟩
  · refine ⟨s, step_of_stopped s hf, ?_⟩
    rw [if_neg (by simp [hf])]
    exact step_of_stopped { s with mode := m } hf

/-- With VF replaced an instruction that does not name VF answers the same state where it writes VF, and else the
same state but for VF (R12). -/
theorem exec_of_vf {i : Instr} {s t : State} (hn : ¬ namesReg flagReg i) (h : exec i s = .next t) (vf : Byte) :
    exec i (s.setReg flagReg vf) = .next t ∨
    exec i (s.setReg flagReg vf) = .next (t.setReg flagReg vf) := by
  cases i with
  | cls | jp _ | ldINnn _ | unknown _ =>
    obtain rfl := Host.Outcome.next.inj h
    exact .inr rfl
  | jpV0Nnn nnn =>
    obtain rfl := Host.Outcome.next.inj h
    refine .inr (congrArg Host.Outcome.next ?_)
    rw [State.opV0_eq_reg, State.reg_setReg_of_ne s vf (by decide)]
    rfl
  | ldVxKk x _ | addVxKk x _ | rndVxKk x _ | ldVxDt x | seVxKk x _ | sneVxKk x _ | skpVx x | sknpVx x
  | ldDtVx x | ldStVx x | addIVx x | ldFVx x =>
    obtain rfl := Host.Outcome.next.inj h
    refine .inr (congrArg Host.Outcome.next ?_)
    simp only [State.opA_eq_reg, State.reg_setReg_of_ne s vf hn, State.setReg_comm s _ _ (Ne.symm hn)]
    rfl
  | ldVxVy x y | orVxVy x y | andVxVy x y | xorVxVy x y | seVxVy x y | sneVxVy x y =>
    obtain ⟨hx, hy⟩ := not_or.1 hn
    obtain rfl := Host.Outcome.next.inj h
    refine .inr (congrArg Host.Outcome.next ?_)
    simp only [State.opA_eq_reg, State.opB_eq_reg, State.reg_setReg_of_ne s vf hx,
      State.reg_setReg_of_ne s vf hy, State.setReg_comm s _ _ (Ne.symm hx)]
    rfl
  | shrVx x | shlVx x =>
    obtain rfl := Host.Outcome.next.inj h
    refine .inl (congrArg Host.Outcome.next ?_)
    rw [State.setFlagThenReg_setReg_flagReg, State.opA_eq_reg, State.reg_setReg_of_ne s vf hn]
    rfl
  | addVxVy x y | subVxVy x y | subnVxVy x y =>
    obtain ⟨hx, hy⟩ := not_or.1 hn
    obtain rfl := Host.Outcome.next.inj h
    refine .inl (congrArg Host.Outcome.next ?_)
    rw [State.setFlagThenReg_setReg_flagReg, State.opA_eq_reg, State.opB_eq_reg,
      State.reg_setReg_of_ne s vf hx, State.reg_setReg_of_ne s vf hy]
    rfl
  | ret =>
    obtain ⟨h0, rfl⟩ | ⟨h0, rfl⟩ := execRet_cases h
    · exact .inr (execRet_of_empty (s.setReg flagReg vf) h0)
    · exact .inr (execRet_of_active (s.setReg flagReg vf) h0)
  | call nnn =>
    obtain ⟨hf, rfl⟩ | ⟨hr, rfl⟩ := execCall_cases h
    · exact .inr (execCall_of_full (s.setReg flagReg vf) nnn hf)
    · exact .inr (execCall_of_room (s.setReg flagReg vf) nnn hr)
  | drwVxVyN x y n =>
    obtain ⟨hx, hy⟩ := not_or.1 hn
    obtain ⟨hb, rfl⟩ | ⟨hb, rfl⟩ := execDrwVxVyN_cases h
    · exact .inr (execDrwVxVyN_of_outside (s.setReg flagReg vf) x y n hb)
    · refine .inl ((execDrwVxVyN_of_inside (s.setReg flagReg vf) x y n hb).trans ?_)
      rw [State.setReg_setReg_same, State.reg_setReg_of_ne s vf hx, State.reg_setReg_of_ne s vf hy]
      rfl
  | ldBVx x =>
    obtain ⟨hb, rfl⟩ | ⟨hb, rfl⟩ := execLdBVx_cases h
    · exact .inr (execLdBVx_of_outside (s.setReg flagReg vf) x hb)
    · refine .inr ((execLdBVx_of_inside (s.setReg flagReg vf) x hb).trans ?_)
      rw [State.reg_setReg_of_ne s vf hn]
      rfl
  | ldMemVx x =>
    obtain ⟨hb, rfl⟩ | ⟨hb, rfl⟩ := execLdMemVx_cases h
    · exact .inr (execLdMemVx_of_outside (s.setReg flagReg vf) x hb)
    · refine .inr ((execLdMemVx_of_inside (s.setReg flagReg vf) x hb).trans ?_)
      rw [State.regsUpTo_setReg_of_lt s vf (Nat.not_le.1 hn)]
      rfl
  | ldVxMem x =>
    obtain ⟨hb, rfl⟩ | ⟨hb, rfl⟩ := execLdVxMem_cases h
    · exact .inr (execLdVxMem_of_outside (s.setReg flagReg vf) x hb)
    · refine .inr ((execLdVxMem_of_inside (s.setReg flagReg vf) x hb).trans ?_)
      have hlen : (Memory.readBytes s.mem s.i.toNat (x.toNat + 1)).length ≤ flagReg.toNat := by
        rw [Memory.length_readBytes]
        exact Nat.not_le.1 hn
      exact congrArg (fun u => Host.Outcome.next (State.advance u 2)) (s.setRegsFrom0_setReg_of_le vf hlen)
  | ldVxK x =>
    obtain ⟨hk, rfl⟩ | ⟨key, hk, rfl⟩ := execLdVxK_cases h
    · exact .inr (execLdVxK_of_none (s.setReg flagReg vf) x hk)
    · refine .inr ((execLdVxK_of_some (s.setReg flagReg vf) x key hk).trans ?_)
      rw [State.setReg_comm s _ _ (Ne.symm hn)]
      rfl

/-- Settles O50: VF is either overwritten or kept, so the answers agree once VF is set alike. -/
theorem vfIsNotReadImplicitly : Obligations.VfIsNotReadImplicitly := by
  intro i s t vf hn h
  obtain he | he := exec_of_vf hn h vf
  · exact ⟨t, he, rfl⟩
  · exact ⟨t.setReg flagReg vf, he, State.setReg_setReg_same t vf 0⟩

end Sys2Proof.Machine
end

section
/-!
SUPPORT. The invariants of R37 along a step, at reset and after boot: O40, O41, O42.
-/

namespace Sys2Proof.Machine

/-- R37 (c), the field `Inv.stackBound` by itself. -/
def StackBounded (s : State) : Prop := ∀ j : Fin 16, j.val < s.sp.val → s.stack[j].toNat ≤ 0xFFE

theorem State.skipIf_pc (s : State) (c : Bool) :
    (s.skipIf c).pc = s.pc + 2 ∨ (s.skipIf c).pc = s.pc + 4 := by
  cases c
  · exact .inl rfl
  · exact .inr rfl

section Exec

variable {i : Instr} {s t : State}

/-- Everything an instruction can do to pc (R87, R100 to R107). -/
theorem exec_pc (h : exec i s = .next t) :
    t.pc = s.pc ∨ t.pc = s.pc + 2 ∨ t.pc = s.pc + 4 ∨ (∃ nnn : Addr12, t.pc = zext16 nnn) ∨
    (∃ nnn : Addr12, t.pc = zext16 nnn + zext16 (s.reg 0)) ∨
    ∃ _ : s.sp.val ≠ 0, t.pc = s.stack[s.sp.val - 1] + 2 := by
  cases i with
  | jp nnn =>
    obtain rfl := Host.Outcome.next.inj h
    exact .inr (.inr (.inr (.inl ⟨nnn, rfl⟩)))
  | jpV0Nnn nnn =>
    obtain rfl := Host.Outcome.next.inj h
    exact .inr (.inr (.inr (.inr (.inl ⟨nnn, rfl⟩))))
  | seVxKk _ _ | sneVxKk _ _ | seVxVy _ _ | sneVxVy _ _ | skpVx _ | sknpVx _ =>
    obtain rfl := Host.Outcome.next.inj h
    obtain h2 | h4 := s.skipIf_pc _
    · exact .inr (.inl h2)
    · exact .inr (.inr (.inl h4))
  | ret =>
    obtain ⟨_, rfl⟩ | ⟨h0, rfl⟩ := execRet_cases h
    · exact .inl rfl
    · exact .inr (.inr (.inr (.inr (.inr ⟨h0, rfl⟩))))
  | call nnn =>
    obtain ⟨_, rfl⟩ | ⟨_, rfl⟩ := execCall_cases h
    · exact .inl rfl
    · exact .inr (.inr (.inr (.inl ⟨nnn, rfl⟩)))
  | drwVxVyN _ _ _ => obtain ⟨_, rfl⟩ | ⟨_, rfl⟩ := execDrwVxVyN_cases h <;> simp
  | ldBVx _ => obtain ⟨_, rfl⟩ | ⟨_, rfl⟩ := execLdBVx_cases h <;> simp
  | ldMemVx _ => obtain ⟨_, rfl⟩ | ⟨_, rfl⟩ := execLdMemVx_cases h <;> simp
  | ldVxMem _ => obtain ⟨_, rfl⟩ | ⟨_, rfl⟩ := execLdVxMem_cases h <;> simp
  | ldVxK _ => obtain ⟨_, rfl⟩ | ⟨_, _, rfl⟩ := execLdVxK_cases h <;> simp
  | _ =>
    obtain rfl := Host.Outcome.next.inj h
    exact .inr (.inl rfl)

/-- R37 (b): the furthest pc is that of `JP V0,nnn`, 0xFFF + 0xFF. -/
theorem exec_pc_le (hpc : s.pc.toNat ≤ 0xFFE) (hst : StackBounded s) (h : exec i s = .next t) :
    t.pc.toNat ≤ 0x10FE := by
  obtain e | e | e | ⟨nnn, e⟩ | ⟨nnn, e⟩ | ⟨h0, e⟩ := exec_pc h <;> rw [e]
  · omega
  · bv_omega
  · bv_omega
  · have := nnn.isLt
    rw [BitVec.toNat_setWidth]
    omega
  · have := nnn.isLt
    have := (s.reg 0).isLt
    rw [BitVec.toNat_add, BitVec.toNat_setWidth, BitVec.toNat_setWidth]
    omega
  · have hentry : s.stack[s.sp.val - 1].toNat ≤ 0xFFE :=
      hst ⟨s.sp.val - 1, by omega⟩ (Nat.sub_one_lt h0)
    bv_omega

/-- R37 (c): CALL pushes a pc that was fetched from, RET drops an entry, and no other instruction touches the
stack. -/
theorem exec_stackBounded (hpc : s.pc.toNat ≤ 0xFFE) (hst : StackBounded s) (h : exec i s = .next t) :
    StackBounded t := by
  obtain ⟨-, hstack, hsp, -⟩ := onlyNamedInstructionsWrite i s t h
  by_cases hi : i = .ret ∨ ∃ nnn, i = .call nnn
  · obtain rfl | ⟨nnn, rfl⟩ := hi
    · obtain ⟨_, rfl⟩ | ⟨_, rfl⟩ := execRet_cases h
      · exact hst
      · exact fun j hj => hst j (Nat.lt_of_lt_of_le hj (Nat.sub_le _ _))
    · obtain ⟨_, rfl⟩ | ⟨_, rfl⟩ := execCall_cases h
      · exact hst
      · intro j hj
        have hj' : j.val < s.sp.val + 1 := hj
        by_cases he : s.sp.val = j.val
        · simpa [he] using hpc
        · simpa [Vector.getElem_set_ne _ _ he] using hst j (by omega)
  · have hs : t.stack = s.stack := by_contra fun e => hi (.inr (hstack e))
    have hp : t.sp = s.sp := by_contra fun e => hi (hsp e)
    rw [StackBounded, hs, hp]
    exact hst

theorem Memory.wf_writeBytes_of_inMemory {m : List Host.Cell} {base : Nat} {bs : List Byte}
    (hm : Memory.wf m) (hb : inMemory base bs.length = true) : Memory.wf (Memory.writeBytes m base bs) := by
  rw [inMemory_iff, List.length_eq_zero_iff] at hb
  exact Memory.wf_writeBytes bs m base hb.symm hm

/-- The two instructions that store check their bounds first, and no other touches memory (R45). -/
theorem exec_keeps_wf (hm : Memory.wf s.mem) (h : exec i s = .next t) : Memory.wf t.mem := by
  obtain ⟨-, -, -, -, -, -, hmem, -⟩ := onlyNamedInstructionsWrite i s t h
  by_cases he : t.mem = s.mem
  · rwa [he]
  · obtain ⟨x, rfl⟩ | ⟨x, rfl⟩ := hmem he
    · obtain ⟨_, rfl⟩ | ⟨hb, rfl⟩ := execLdBVx_cases h
      · exact hm
      · exact Memory.wf_writeBytes_of_inMemory hm hb
    · obtain ⟨_, rfl⟩ | ⟨hb, rfl⟩ := execLdMemVx_cases h
      · exact hm
      · rw [← s.length_regsUpTo] at hb
        exact Memory.wf_writeBytes_of_inMemory hm hb

/-- `LD Vx,K` raises no fault (R190). -/
theorem exec_ldVxK_flt {x : Nibble} (h : exec (.ldVxK x) s = .next t) : t.flt = s.flt := by
  obtain ⟨-, -, -, -, -, -, -, -, hflt, -⟩ := onlyNamedInstructionsWrite _ s t h
  exact by_contra fun e => by simpa using hflt e

end Exec

namespace Inv

variable {s u : State} {op : Word}

/-- Raising a fault keeps the invariants, unless the engine is waiting: a stopped core waits for no key. -/
theorem raise (hs : Inv s) (hm : s.mode ≠ .awaitingKey) (f : Fault) : Inv (s.raise f) :=
  ⟨hs.memory, hs.pcBound, hs.stackBound, fun h => absurd h hm⟩

/-- A cycle that raises was not waiting, since a waiting engine executes `LD Vx,K`. -/
theorem endCycle_of_raised {f : Fault} (hs : Inv s) (hop : s.fetchOpcode = some op)
    (hu : exec (decodeWord op) s.latchKeys = .next u) (hfu : u.flt = some f) :
    Inv (s.endCycle (decodeWord op) u) := by
  rw [State.endCycle_of_some _ _ _ f hfu]
  refine hs.raise (fun hm => ?_) f
  obtain ⟨x, hf, op', hop', hx⟩ := hs.waiting hm
  obtain rfl : op = op' := Option.some.inj (hop.symm.trans hop')
  rw [hx] at hu
  have hkept : u.flt = s.latchKeys.flt := exec_ldVxK_flt hu
  simp [hf, hfu] at hkept

/-- A cycle without a fault began at a fetchable pc, and waits only where `LD Vx,K` changed nothing but MODE. -/
theorem endCycle_of_completed (hs : Inv s) (hop : s.fetchOpcode = some op)
    (hu : exec (decodeWord op) s.latchKeys = .next u) (hfu : u.flt = none) :
    Inv (s.endCycle (decodeWord op) u) := by
  have hpc : s.latchKeys.pc.toNat ≤ 0xFFE := ((s.fetchOpcode_eq_some op).1 hop).1
  have hst : StackBounded s.latchKeys := hs.stackBound
  rw [State.endCycle_of_none _ _ _ hfu]
  constructor
  · have hm : Memory.wf s.latchKeys.mem := hs.memory
    simpa using exec_keeps_wf hm hu
  · simpa using exec_pc_le hpc hst hu
  · simpa [StackBounded] using exec_stackBounded hpc hst hu
  · intro hm
    obtain ⟨hmu, x, hx⟩ := State.settleMode_awaitingKey u hm
    rw [hx] at hu ⊢
    obtain ⟨-, rfl⟩ | ⟨_, -, rfl⟩ := execLdVxK_cases hu
    · exact ⟨x, hfu, op, hop, hx⟩
    · cases hmu

end Inv

/-- Settles O40, by the cases of a step; the invariants follow from what the executed instruction does to memory,
pc, the stack and MODE. -/
theorem stepKeepsInvariant : Obligations.StepKeepsInvariant := by
  intro s t hs h
  obtain ⟨f, -, rfl⟩ | ⟨hf, hop, rfl⟩ | ⟨op, u, hf, hop, hu, rfl⟩ := step_cases s t h
  · exact ⟨hs, fun _ => id⟩
  · refine ⟨hs.raise (fun hm => ?_) _, by simp [hf]⟩
    obtain ⟨x, -, op, hop', -⟩ := hs.waiting hm
    simp [hop] at hop'
  · refine ⟨?_, by simp [hf]⟩
    cases hfu : u.flt with
    | none => exact hs.endCycle_of_completed hop hu hfu
    | some f => exact hs.endCycle_of_raised hop hu hfu

/-- Settles O41. -/
theorem resetMeetsInvariant : Obligations.ResetMeetsInvariant where
  memory := by decide
  pcBound := by decide
  stackBound _ hj := absurd hj (Nat.not_lt_zero _)
  waiting h := nomatch h

section Boot

variable (s : State) (font : Font) (rom : List Byte)

@[simp] theorem State.bootWith_pc : (s.bootWith font rom).pc = s.pc := by
  unfold State.bootWith; split <;> rfl
@[simp] theorem State.bootWith_sp : (s.bootWith font rom).sp = s.sp := by
  unfold State.bootWith; split <;> rfl
@[simp] theorem State.bootWith_stack : (s.bootWith font rom).stack = s.stack := by
  unfold State.bootWith; split <;> rfl
@[simp] theorem State.bootWith_mode : (s.bootWith font rom).mode = s.mode := by
  unfold State.bootWith; split <;> rfl

/-- Boot of a state that is not waiting keeps the invariants, accepted or not (R222, R223). -/
theorem Inv.bootWith {s : State} (hs : Inv s) (hm : s.mode = .running) : Inv (s.bootWith font rom) where
  memory := s.wf_bootWith font rom hs.memory
  pcBound := by simpa using hs.pcBound
  stackBound := by simpa using hs.stackBound
  waiting := by simp [hm]

end Boot

/-- Settles O42: the reset state meets the invariants and is not waiting. -/
theorem bootMeetsInvariant : Obligations.BootMeetsInvariant :=
  fun font rom => resetMeetsInvariant.bootWith font rom rfl

end Sys2Proof.Machine
end

section
/-!
SUPPORT. The reset values and the output ports: O43, O56.
-/

namespace Sys2Proof.Machine

theorem State.reset_reg (x : Nibble) : State.reset.reg x = 0 := by
  simp [State.reg, State.reset]

/-- Settles O43. -/
theorem resetValues : Obligations.ResetValues :=
  ⟨State.reset_reg, rfl, rfl, rfl, rfl, rfl, pixel_blankScreen, rfl, rfl, rfl, fun _ => rfl⟩

section Ports

variable (s : State)

/-- The flat index of port `fb` splits into its row and column (R34). -/
theorem State.fbPort_of_eq {r : Fin 32} {c : Fin 64} {n : Fin 2048} (h : n.val = r.val * 64 + c.val) :
    s.fbPort n = pixel s.fb r c := by
  have hr : (⟨n.val / 64, by omega⟩ : Fin 32) = r := Fin.ext (by simp only; omega)
  have hc : (⟨n.val % 64, by omega⟩ : Fin 64) = c := Fin.ext (by simp only; omega)
  rw [State.fbPort, hr, hc]

theorem State.waitingPort_iff : s.waitingPort = true ↔ s.mode = .awaitingKey := beq_iff_eq

theorem State.faultPort_of_eq {f : Option Fault} (h : s.flt = f) : s.faultPort = faultCode f :=
  congrArg faultCode h

end Ports

/-- Settles O56, port by port. -/
theorem outputsShowState : Obligations.OutputsShowState := fun s =>
  ⟨fun _ _ _ => s.fbPort_of_eq, rfl, s.waitingPort_iff, s.faultPort_of_eq, s.faultPort_of_eq,
    s.faultPort_of_eq, s.faultPort_of_eq, s.faultPort_of_eq, s.faultPort_of_eq⟩

end Sys2Proof.Machine
end

section
/-!
SUPPORT. Fetching and storing, and how they meet in memory: O31, O54.
-/

namespace Sys2Proof.Machine

section Fetch

variable {s : State}

theorem State.fetchOpcode_of_pc_le (h : s.pc.toNat ≤ 0xFFE) :
    s.fetchOpcode =
      some (composeOpcode (Memory.read s.mem s.pc.toNat) (Memory.read s.mem (s.pc.toNat + 1))) :=
  (s.fetchOpcode_eq_some _).2 ⟨h, rfl⟩

/-- A fetch at a data address that leaves room for both bytes of the opcode: no bits of the address are lost
in pc. -/
theorem State.fetchOpcode_withPc {a : Nat} (h : a ≤ 0xFFE) :
    State.fetchOpcode { s with pc := BitVec.ofNat 16 a } =
      some (composeOpcode (Memory.read s.mem a) (Memory.read s.mem (a + 1))) := by
  have ha : (BitVec.ofNat 16 a).toNat = a := by
    rw [BitVec.toNat_ofNat]
    omega
  rw [State.fetchOpcode_of_pc_le (by simpa only [ha] using h)]
  simp only [ha]

end Fetch

/-- Settles O31: the fetch is in range, and composing its two bytes is `toNat_composeOpcode`. -/
theorem fetchIsBigEndian : Obligations.FetchIsBigEndian :=
  fun _ h => ⟨_, State.fetchOpcode_of_pc_le h, toNat_composeOpcode _ _⟩

/-- The block store of R144: cell I + r holds V[r], for every register up to x. -/
theorem Memory.read_writeBytes_regsUpTo {s : State} {x r : Nibble} (hm : Memory.wf s.mem)
    (hb : s.i.toNat + x.toNat ≤ 0xFFF) (hr : r.toNat ≤ x.toNat) :
    Memory.read (Memory.writeBytes s.mem s.i.toNat (s.regsUpTo x)) (s.i.toNat + r.toNat) = s.reg r := by
  have hlen : r.toNat < (s.regsUpTo x).length := by
    rw [State.length_regsUpTo]
    omega
  have hroom : s.i.toNat + (s.regsUpTo x).length ≤ Config.memSize := by
    rw [State.length_regsUpTo]
    exact Nat.succ_le_succ hb
  rw [Memory.read_writeBytes_inside _ _ _ _ hlen hroom hm, State.getElem_regsUpTo]

/-- Settles O54: a fetch reads the very cells that the store wrote (R49, R51). -/
theorem storesAreSeenByFetch : Obligations.StoresAreSeenByFetch := by
  intro s x r r' hm hb hrr hx
  have hin : inMemory s.i.toNat (x.toNat + 1) = true := (inMemory_iff _ _).2 (.inr (Nat.succ_le_succ hb))
  refine ⟨_, execLdMemVx_of_inside s x hin, ?_⟩
  have hhi := Memory.read_writeBytes_regsUpTo (r := r) hm hb (by omega)
  have hlo := Memory.read_writeBytes_regsUpTo hm hb hx
  rw [hrr, ← Nat.add_assoc] at hlo
  rw [State.fetchOpcode_withPc (by omega), State.advance_mem, hhi, hlo]

end Sys2Proof.Machine
end

section
/-!
SUPPORT. The encoding as a relation: the words of each instruction, the bits its format ignores at every
value (R63, R64, R66). The decode procedure answers an instruction exactly on its words.
-/

namespace Sys2Proof

/-- The words of each instruction with a row of its own, as R66 writes them: `?` is a free field. -/
inductive HasWord : Instr → Word → Prop
  | cls (x : Nibble) : HasWord .cls (wordXK 0x0 x 0xE0)
  | ret (x : Nibble) : HasWord .ret (wordXK 0x0 x 0xEE)
  | jp (nnn : Addr12) : HasWord (.jp nnn) (wordA 0x1 nnn)
  | call (nnn : Addr12) : HasWord (.call nnn) (wordA 0x2 nnn)
  | seVxKk (x : Nibble) (kk : Byte) : HasWord (.seVxKk x kk) (wordXK 0x3 x kk)
  | sneVxKk (x : Nibble) (kk : Byte) : HasWord (.sneVxKk x kk) (wordXK 0x4 x kk)
  | seVxVy (x y n : Nibble) : HasWord (.seVxVy x y) (wordXY 0x5 x y n)
  | ldVxKk (x : Nibble) (kk : Byte) : HasWord (.ldVxKk x kk) (wordXK 0x6 x kk)
  | addVxKk (x : Nibble) (kk : Byte) : HasWord (.addVxKk x kk) (wordXK 0x7 x kk)
  | ldVxVy (x y : Nibble) : HasWord (.ldVxVy x y) (wordXY 0x8 x y 0x0)
  | orVxVy (x y : Nibble) : HasWord (.orVxVy x y) (wordXY 0x8 x y 0x1)
  | andVxVy (x y : Nibble) : HasWord (.andVxVy x y) (wordXY 0x8 x y 0x2)
  | xorVxVy (x y : Nibble) : HasWord (.xorVxVy x y) (wordXY 0x8 x y 0x3)
  | addVxVy (x y : Nibble) : HasWord (.addVxVy x y) (wordXY 0x8 x y 0x4)
  | subVxVy (x y : Nibble) : HasWord (.subVxVy x y) (wordXY 0x8 x y 0x5)
  | shrVx (x y : Nibble) : HasWord (.shrVx x) (wordXY 0x8 x y 0x6)
  | subnVxVy (x y : Nibble) : HasWord (.subnVxVy x y) (wordXY 0x8 x y 0x7)
  | shlVx (x y : Nibble) : HasWord (.shlVx x) (wordXY 0x8 x y 0xE)
  | sneVxVy (x y n : Nibble) : HasWord (.sneVxVy x y) (wordXY 0x9 x y n)
  | ldINnn (nnn : Addr12) : HasWord (.ldINnn nnn) (wordA 0xA nnn)
  | jpV0Nnn (nnn : Addr12) : HasWord (.jpV0Nnn nnn) (wordA 0xB nnn)
  | rndVxKk (x : Nibble) (kk : Byte) : HasWord (.rndVxKk x kk) (wordXK 0xC x kk)
  | drwVxVyN (x y n : Nibble) : HasWord (.drwVxVyN x y n) (wordXY 0xD x y n)
  | skpVx (x : Nibble) : HasWord (.skpVx x) (wordXK 0xE x 0x9E)
  | sknpVx (x : Nibble) : HasWord (.sknpVx x) (wordXK 0xE x 0xA1)
  | ldVxDt (x : Nibble) : HasWord (.ldVxDt x) (wordXK 0xF x 0x07)
  | ldVxK (x : Nibble) : HasWord (.ldVxK x) (wordXK 0xF x 0x0A)
  | ldDtVx (x : Nibble) : HasWord (.ldDtVx x) (wordXK 0xF x 0x15)
  | ldStVx (x : Nibble) : HasWord (.ldStVx x) (wordXK 0xF x 0x18)
  | addIVx (x : Nibble) : HasWord (.addIVx x) (wordXK 0xF x 0x1E)
  | ldFVx (x : Nibble) : HasWord (.ldFVx x) (wordXK 0xF x 0x29)
  | ldBVx (x : Nibble) : HasWord (.ldBVx x) (wordXK 0xF x 0x33)
  | ldMemVx (x : Nibble) : HasWord (.ldMemVx x) (wordXK 0xF x 0x55)
  | ldVxMem (x : Nibble) : HasWord (.ldVxMem x) (wordXK 0xF x 0x65)

@[simp] theorem Nibble.and_ones (c : Nibble) : c &&& 0xF#4 = c := BitVec.and_allOnes

@[simp] theorem Byte.and_ones (b : Byte) : b &&& 0xFF#8 = b := BitVec.and_allOnes

section Masks

variable (w m : Word)

theorem opClass_and : opClass (w &&& m) = opClass w &&& opClass m := BitVec.extractLsb'_and

theorem fieldX_and : fieldX (w &&& m) = fieldX w &&& fieldX m := BitVec.extractLsb'_and

theorem fieldY_and : fieldY (w &&& m) = fieldY w &&& fieldY m := BitVec.extractLsb'_and

theorem fieldN_and : fieldN (w &&& m) = fieldN w &&& fieldN m := BitVec.extractLsb'_and

theorem fieldKk_and : fieldKk (w &&& m) = fieldKk w &&& fieldKk m := BitVec.extractLsb'_and

variable {w m}

theorem opClass_and_of_ones (h : opClass m = 0xF#4) : opClass (w &&& m) = opClass w := by
  rw [opClass_and, h, Nibble.and_ones]

theorem fieldN_and_of_ones (h : fieldN m = 0xF#4) : fieldN (w &&& m) = fieldN w := by
  rw [fieldN_and, h, Nibble.and_ones]

theorem fieldKk_and_of_ones (h : fieldKk m = 0xFF#8) : fieldKk (w &&& m) = fieldKk w := by
  rw [fieldKk_and, h, Byte.and_ones]

end Masks

section Words

variable {i : Instr} {v w : Word} {c n : Nibble} {kk : Byte}

theorem HasWord.of_eq (h : HasWord i v) (e : v = w) : HasWord i w := e ▸ h

/-- Decoding a word of an instruction reads the instruction's operands back from their fields. -/
theorem HasWord.decodeWord_eq (h : HasWord i w) : decodeWord w = i := by
  cases h <;> simp [decodeWord, decodeClass0, decodeClass8, decodeClassE, decodeClassF]

theorem wordA_of_class (hc : (opClass w).toNat = c.toNat) : wordA c (fieldNnn w) = w := by
  rw [← BitVec.eq_of_toNat_eq hc, wordA_fields]

theorem wordXK_of_class (hc : (opClass w).toNat = c.toNat) : wordXK c (fieldX w) (fieldKk w) = w := by
  rw [← BitVec.eq_of_toNat_eq hc, wordXK_fields]

theorem wordXY_of_class (hc : (opClass w).toNat = c.toNat) :
    wordXY c (fieldX w) (fieldY w) (fieldN w) = w := by
  rw [← BitVec.eq_of_toNat_eq hc, wordXY_fields]

theorem wordXK_of_byte (hc : (opClass w).toNat = c.toNat) (hk : (fieldKk w).toNat = kk.toNat) :
    wordXK c (fieldX w) kk = w := by
  rw [← BitVec.eq_of_toNat_eq hk, wordXK_of_class hc]

theorem wordXY_of_nibble (hc : (opClass w).toNat = c.toNat) (hn : (fieldN w).toNat = n.toNat) :
    wordXY c (fieldX w) (fieldY w) n = w := by
  rw [← BitVec.eq_of_toNat_eq hn, wordXY_of_class hc]

theorem decodeClass0_cases (hc : (opClass w).toNat = 0x0) :
    decodeClass0 w = .unknown w ∨ HasWord (decodeClass0 w) w := by
  unfold decodeClass0
  split
  · next hk => exact .inr ((HasWord.cls _).of_eq (wordXK_of_byte hc hk))
  · next hk => exact .inr ((HasWord.ret _).of_eq (wordXK_of_byte hc hk))
  · exact .inl rfl

theorem decodeClass8_cases (hc : (opClass w).toNat = 0x8) :
    decodeClass8 w = .unknown w ∨ HasWord (decodeClass8 w) w := by
  unfold decodeClass8
  split
  · next hn => exact .inr ((HasWord.ldVxVy _ _).of_eq (wordXY_of_nibble hc hn))
  · next hn => exact .inr ((HasWord.orVxVy _ _).of_eq (wordXY_of_nibble hc hn))
  · next hn => exact .inr ((HasWord.andVxVy _ _).of_eq (wordXY_of_nibble hc hn))
  · next hn => exact .inr ((HasWord.xorVxVy _ _).of_eq (wordXY_of_nibble hc hn))
  · next hn => exact .inr ((HasWord.addVxVy _ _).of_eq (wordXY_of_nibble hc hn))
  · next hn => exact .inr ((HasWord.subVxVy _ _).of_eq (wordXY_of_nibble hc hn))
  · next hn => exact .inr ((HasWord.shrVx _ _).of_eq (wordXY_of_nibble hc hn))
  · next hn => exact .inr ((HasWord.subnVxVy _ _).of_eq (wordXY_of_nibble hc hn))
  · next hn => exact .inr ((HasWord.shlVx _ _).of_eq (wordXY_of_nibble hc hn))
  · exact .inl rfl

theorem decodeClassE_cases (hc : (opClass w).toNat = 0xE) :
    decodeClassE w = .unknown w ∨ HasWord (decodeClassE w) w := by
  unfold decodeClassE
  split
  · next hk => exact .inr ((HasWord.skpVx _).of_eq (wordXK_of_byte hc hk))
  · next hk => exact .inr ((HasWord.sknpVx _).of_eq (wordXK_of_byte hc hk))
  · exact .inl rfl

theorem decodeClassF_cases (hc : (opClass w).toNat = 0xF) :
    decodeClassF w = .unknown w ∨ HasWord (decodeClassF w) w := by
  unfold decodeClassF
  split
  · next hk => exact .inr ((HasWord.ldVxDt _).of_eq (wordXK_of_byte hc hk))
  · next hk => exact .inr ((HasWord.ldVxK _).of_eq (wordXK_of_byte hc hk))
  · next hk => exact .inr ((HasWord.ldDtVx _).of_eq (wordXK_of_byte hc hk))
  · next hk => exact .inr ((HasWord.ldStVx _).of_eq (wordXK_of_byte hc hk))
  · next hk => exact .inr ((HasWord.addIVx _).of_eq (wordXK_of_byte hc hk))
  · next hk => exact .inr ((HasWord.ldFVx _).of_eq (wordXK_of_byte hc hk))
  · next hk => exact .inr ((HasWord.ldBVx _).of_eq (wordXK_of_byte hc hk))
  · next hk => exact .inr ((HasWord.ldMemVx _).of_eq (wordXK_of_byte hc hk))
  · next hk => exact .inr ((HasWord.ldVxMem _).of_eq (wordXK_of_byte hc hk))
  · exact .inl rfl

/-- What the decode procedure can answer, once: UNKNOWN with the word itself, or an instruction that has
the word (R65). -/
theorem decodeWord_cases (w : Word) : decodeWord w = .unknown w ∨ HasWord (decodeWord w) w := by
  unfold decodeWord
  split
  · next hc => exact decodeClass0_cases hc
  · next hc => exact .inr ((HasWord.jp _).of_eq (wordA_of_class hc))
  · next hc => exact .inr ((HasWord.call _).of_eq (wordA_of_class hc))
  · next hc => exact .inr ((HasWord.seVxKk _ _).of_eq (wordXK_of_class hc))
  · next hc => exact .inr ((HasWord.sneVxKk _ _).of_eq (wordXK_of_class hc))
  · next hc => exact .inr ((HasWord.seVxVy _ _ _).of_eq (wordXY_of_class hc))
  · next hc => exact .inr ((HasWord.ldVxKk _ _).of_eq (wordXK_of_class hc))
  · next hc => exact .inr ((HasWord.addVxKk _ _).of_eq (wordXK_of_class hc))
  · next hc => exact decodeClass8_cases hc
  · next hc => exact .inr ((HasWord.sneVxVy _ _ _).of_eq (wordXY_of_class hc))
  · next hc => exact .inr ((HasWord.ldINnn _).of_eq (wordA_of_class hc))
  · next hc => exact .inr ((HasWord.jpV0Nnn _).of_eq (wordA_of_class hc))
  · next hc => exact .inr ((HasWord.rndVxKk _ _).of_eq (wordXK_of_class hc))
  · next hc => exact .inr ((HasWord.drwVxVyN _ _ _).of_eq (wordXY_of_class hc))
  · next hc => exact decodeClassE_cases hc
  · have := (opClass w).isLt
    simp only [imp_false] at *
    exact decodeClassF_cases (by omega)

theorem HasWord.wf (h : HasWord i w) : i.wf = true := by
  cases h <;> rfl

/-- A mask acts field by field (R61). -/
theorem wordXK_and (c x : Nibble) (kk : Byte) (m : Word) :
    wordXK c x kk &&& m = wordXK (c &&& opClass m) (x &&& fieldX m) (kk &&& fieldKk m) := by
  rw [← wordXK_fields (wordXK c x kk &&& m), opClass_and, fieldX_and, fieldKk_and, opClass_wordXK,
    fieldX_wordXK, fieldKk_wordXK]

theorem wordXY_and (c x y n : Nibble) (m : Word) :
    wordXY c x y n &&& m =
      wordXY (c &&& opClass m) (x &&& fieldX m) (y &&& fieldY m) (n &&& fieldN m) := by
  rw [← wordXY_fields (wordXY c x y n &&& m), opClass_and, fieldX_and, fieldY_and, fieldN_and,
    opClass_wordXY, fieldX_wordXY, fieldY_wordXY, fieldN_wordXY]

theorem wordXK_and_ignoreX (x : Nibble) : wordXK c x kk &&& 0xF0FF = wordXK c 0 kk := by
  rw [wordXK_and]
  simp [opClass, fieldX, fieldKk]

theorem wordXY_and_ignoreN (x y : Nibble) : wordXY c x y n &&& 0xFFF0 = wordXY c x y 0 := by
  rw [wordXY_and]
  simp [opClass, fieldX, fieldY, fieldN]

theorem wordXY_and_ignoreY (x y : Nibble) : wordXY c x y n &&& 0xFF0F = wordXY c x 0 n := by
  rw [wordXY_and]
  simp [opClass, fieldX, fieldY, fieldN]

/-- Clearing the ignored bits of any word of an instruction gives the encoder's word. -/
theorem HasWord.encode_eq (h : HasWord i w) : encode i = w &&& Machine.careMask i := by
  cases h
  case cls | ret => exact (wordXK_and_ignoreX _).symm
  case seVxVy | sneVxVy => exact (wordXY_and_ignoreN _ _).symm
  case shrVx | shlVx => exact (wordXY_and_ignoreY _ _).symm
  all_goals exact BitVec.and_allOnes.symm

/-- The row of an instruction in the opcode map selects every word of the instruction (R66). -/
theorem HasWord.selects (h : HasWord i w) : ∃ r, opcodeRows[i.rowIndex]? = some r ∧ r.selects w = true := by
  cases h <;> refine ⟨_, rfl, ?_⟩
  case jp | call | ldINnn | jpV0Nnn => exact Laws.EncodeRow.selects_wordA _ _
  case seVxKk | sneVxKk | ldVxKk | addVxKk | rndVxKk => exact Laws.EncodeRow.selects_wordXK_class _ _ _
  case seVxVy | sneVxVy | drwVxVyN => exact Laws.EncodeRow.selects_wordXY_class _ _ _ _
  case ldVxVy | orVxVy | andVxVy | xorVxVy | addVxVy | subVxVy | shrVx | subnVxVy | shlVx =>
    exact Laws.EncodeRow.selects_wordXY_nibble _ _ _ _
  all_goals exact Laws.EncodeRow.selects_wordXK_byte _ _ _

end Words

end Sys2Proof
end

section
/-!
SUPPORT. The opcode map against the decode procedure (R65, R66, R68): the row a word decodes to depends on
the bits alone that the row's mask examines; and the obligations about encoding and decoding.
-/

namespace Sys2Proof

section Selectors

variable {v w : Word} {n : Nat} {r : OpcodeRow}

/-- The classes that hold more than one opcode, told apart by the low byte or, in class 8, by the low
nibble (R65). -/
def sharedClasses : List Nibble := [0x0, 0x8, 0xE, 0xF]

theorem not_mem_sharedClasses (c : Nibble) :
    c ∉ sharedClasses ↔ c.toNat ≠ 0x0 ∧ c.toNat ≠ 0x8 ∧ c.toNat ≠ 0xE ∧ c.toNat ≠ 0xF := by
  simp [sharedClasses, ← BitVec.toNat_inj]

theorem opClass_cases (w : Word) :
    opClass w = 0x0 ∨ opClass w = 0x8 ∨ opClass w = 0xE ∨ opClass w = 0xF ∨ opClass w ∉ sharedClasses := by
  simp only [sharedClasses, List.mem_cons, List.not_mem_nil, or_false]
  tauto

theorem decodeWord_of_class0 (h : opClass w = 0x0) : decodeWord w = decodeClass0 w := by
  simp [decodeWord, h]

theorem decodeWord_of_class8 (h : opClass w = 0x8) : decodeWord w = decodeClass8 w := by
  simp [decodeWord, h]

theorem decodeWord_of_classE (h : opClass w = 0xE) : decodeWord w = decodeClassE w := by
  simp [decodeWord, h]

theorem decodeWord_of_classF (h : opClass w = 0xF) : decodeWord w = decodeClassF w := by
  simp [decodeWord, h]

theorem rowIndex_decodeClass0 (hk : fieldKk v = fieldKk w) :
    (decodeClass0 v).rowIndex = (decodeClass0 w).rowIndex := by
  unfold decodeClass0
  rw [hk]
  split <;> rfl

theorem rowIndex_decodeClass8 (hn : fieldN v = fieldN w) :
    (decodeClass8 v).rowIndex = (decodeClass8 w).rowIndex := by
  unfold decodeClass8
  rw [hn]
  split <;> rfl

theorem rowIndex_decodeClassE (hk : fieldKk v = fieldKk w) :
    (decodeClassE v).rowIndex = (decodeClassE w).rowIndex := by
  unfold decodeClassE
  rw [hk]
  split <;> rfl

theorem rowIndex_decodeClassF (hk : fieldKk v = fieldKk w) :
    (decodeClassF v).rowIndex = (decodeClassF w).rowIndex := by
  unfold decodeClassF
  rw [hk]
  split <;> rfl

/-- In a class of one opcode the class alone names the row. -/
theorem rowIndex_decodeWord_of_unshared (hc : opClass v = opClass w) (h : opClass w ∉ sharedClasses) :
    (decodeWord v).rowIndex = (decodeWord w).rowIndex := by
  obtain ⟨h0, h8, hE, hF⟩ := (not_mem_sharedClasses _).1 h
  unfold decodeWord
  rw [hc]
  split
  case h_1 | h_9 | h_15 => contradiction
  case h_16 =>
    have := (opClass w).isLt
    simp only [imp_false] at *
    omega
  all_goals rfl

theorem rowIndex_decodeWord_of_class8 (hc : opClass v = opClass w) (h : opClass w = 0x8)
    (hn : fieldN v = fieldN w) : (decodeWord v).rowIndex = (decodeWord w).rowIndex := by
  rw [decodeWord_of_class8 h, decodeWord_of_class8 (hc.trans h), rowIndex_decodeClass8 hn]

/-- The low nibble is part of the low byte (R61). -/
theorem fieldN_eq_extractLsb'_fieldKk (w : Word) : fieldN w = (fieldKk w).extractLsb' 0 4 := by
  ext j hj
  simp [fieldN, fieldKk]

/-- In every class the class and the low byte name the row. -/
theorem rowIndex_decodeWord_of_byte (hc : opClass v = opClass w) (hk : fieldKk v = fieldKk w) :
    (decodeWord v).rowIndex = (decodeWord w).rowIndex := by
  obtain h | h | h | h | h := opClass_cases w
  · rw [decodeWord_of_class0 h, decodeWord_of_class0 (hc.trans h), rowIndex_decodeClass0 hk]
  · exact rowIndex_decodeWord_of_class8 hc h
      (by rw [fieldN_eq_extractLsb'_fieldKk, hk, fieldN_eq_extractLsb'_fieldKk])
  · rw [decodeWord_of_classE h, decodeWord_of_classE (hc.trans h), rowIndex_decodeClassE hk]
  · rw [decodeWord_of_classF h, decodeWord_of_classF (hc.trans h), rowIndex_decodeClassF hk]
  · exact rowIndex_decodeWord_of_unshared hc h

theorem opcodeRows_patterns :
    ∀ k : Fin opcodeRows.length, (decodeWord opcodeRows[k].pattern).rowIndex = k := by
  decide

/-- A row's own match word decodes to the row's instruction. -/
theorem rowIndex_decodeWord_pattern (hr : opcodeRows[n]? = some r) : (decodeWord r.pattern).rowIndex = n := by
  obtain ⟨hn, rfl⟩ := List.getElem?_eq_some_iff.1 hr
  exact opcodeRows_patterns ⟨n, hn⟩

/-- Every mask examines the class and, where the class is shared, the field that tells its opcodes apart. -/
theorem opcodeRows_masks : ∀ r ∈ opcodeRows, opClass r.mask = 0xF ∧
    (fieldKk r.mask = 0xFF ∨ opClass r.pattern = 0x8 ∧ fieldN r.mask = 0xF ∨
      opClass r.pattern ∉ sharedClasses) := by
  decide

/-- A word that selects a row decodes to the row's instruction: the bits outside the mask do not matter. -/
theorem rowIndex_decodeWord_of_selects (hr : opcodeRows[n]? = some r) (h : r.selects w = true) :
    (decodeWord w).rowIndex = n := by
  obtain ⟨hc, hm⟩ := opcodeRows_masks r (List.mem_of_getElem? hr)
  have hp : w &&& r.mask = r.pattern := beq_iff_eq.1 h
  have hcw : opClass w = opClass r.pattern := by rw [← hp, opClass_and_of_ones hc]
  rw [← rowIndex_decodeWord_pattern hr]
  obtain hk | ⟨h8, hn⟩ | hu := hm
  · exact rowIndex_decodeWord_of_byte hcw (by rw [← hp, fieldKk_and_of_ones hk])
  · exact rowIndex_decodeWord_of_class8 hcw h8 (by rw [← hp, fieldN_and_of_ones hn])
  · exact rowIndex_decodeWord_of_unshared hcw hu

/-- UNKNOWN is what no row selects (R66, R68). -/
theorem isUnknownWord_iff (w : Word) : isUnknownWord w = true ↔ decodeWord w = .unknown w := by
  constructor
  · intro h
    obtain hu | hw := decodeWord_cases w
    · exact hu
    · obtain ⟨r, hr, hs⟩ := hw.selects
      have := List.all_eq_true.1 h r (List.mem_of_getElem? hr)
      simp [hs] at this
  · intro hu
    refine List.all_eq_true.2 fun r hr => ?_
    obtain ⟨n, hn, rfl⟩ := List.mem_iff_getElem.1 hr
    rw [Bool.not_eq_true', ← Bool.not_eq_true]
    intro hs
    have hrow := rowIndex_decodeWord_of_selects (List.getElem?_eq_getElem hn) hs
    rw [hu] at hrow
    exact absurd hn (Nat.not_lt.2 hrow.le)

end Selectors

theorem decodeWord_encode {i : Instr} (h : i.wf = true) : decodeWord (encode i) = i := by
  cases i
  case unknown w => exact (isUnknownWord_iff w).1 h
  all_goals exact HasWord.decodeWord_eq (by constructor)

/-- Settles O46: an instruction with a row has the word it encodes to; UNKNOWN's word selects no row. -/
theorem decodeEncodeRoundTrip : Obligations.DecodeEncodeRoundTrip := by
  intro i h
  refine ⟨decodeWord_encode h, ?_⟩
  rw [encodeBytes, decode_opcodeBytes, decodeWord_encode h]

/-- Settles O47, by what the decode procedure can answer. -/
theorem encodeDecodeKeepsCaredBits : Obligations.EncodeDecodeKeepsCaredBits := by
  intro w
  obtain hu | hw := decodeWord_cases w
  · rw [hu]
    exact ⟨(isUnknownWord_iff w).2 hu, BitVec.and_allOnes.symm⟩
  · exact ⟨hw.wf, hw.encode_eq⟩

/-- Settles O48: the row of the decoded instruction selects the word, and a selecting row is that one. -/
theorem opcodeMapAgreesWithDecode : Obligations.OpcodeMapAgreesWithDecode := by
  refine ⟨rfl, fun w n r hr => ⟨fun h => rowIndex_decodeWord_of_selects hr (beq_iff_eq.2 h), ?_⟩⟩
  rintro rfl
  obtain hu | hw := decodeWord_cases w
  · rw [hu] at hr
    exact absurd hr (by simp [opcodeRows, Instr.rowIndex])
  · obtain ⟨r', hr', hs⟩ := hw.selects
    obtain rfl : r = r' := Option.some.inj (hr.symm.trans hr')
    exact beq_iff_eq.1 hs

section Unknown

variable {w : Word}

theorem decodeClass0_eq_unknown_iff :
    decodeClass0 w = .unknown w ↔ (fieldKk w).toNat ∉ [0xE0, 0xEE] := by
  unfold decodeClass0
  split <;> simp_all

theorem decodeClass8_eq_unknown_iff :
    decodeClass8 w = .unknown w ↔ (fieldN w).toNat ∈ [8, 9, 0xA, 0xB, 0xC, 0xD, 0xF] := by
  unfold decodeClass8
  split
  case h_10 =>
    have := (fieldN w).isLt
    refine iff_of_true rfl ?_
    simp only [imp_false, List.mem_cons, List.not_mem_nil, or_false] at *
    omega
  all_goals simp_all

theorem decodeClassE_eq_unknown_iff :
    decodeClassE w = .unknown w ↔ (fieldKk w).toNat ∉ [0x9E, 0xA1] := by
  unfold decodeClassE
  split <;> simp_all

theorem decodeClassF_eq_unknown_iff :
    decodeClassF w = .unknown w ↔
      (fieldKk w).toNat ∉ [0x07, 0x0A, 0x15, 0x18, 0x1E, 0x29, 0x33, 0x55, 0x65] := by
  unfold decodeClassF
  split <;> simp_all

/-- In a class of one opcode every word has a row. -/
theorem decodeWord_ne_unknown_of_unshared (h : opClass w ∉ sharedClasses) : decodeWord w ≠ .unknown w := by
  intro hu
  have hrow := rowIndex_decodeWord_of_unshared (v := wordXK (opClass w) 0 0) (opClass_wordXK _ _ _) h
  rw [hu, Instr.rowIndex] at hrow
  generalize opClass w = c at h hrow
  revert c
  decide

end Unknown

/-- Settles O49, class by class. -/
theorem unknownWordsExactly : Obligations.UnknownWordsExactly := by
  intro w
  obtain h | h | h | h | h := opClass_cases w
  · rw [decodeWord_of_class0 h, decodeClass0_eq_unknown_iff]
    simp [h]
  · rw [decodeWord_of_class8 h, decodeClass8_eq_unknown_iff]
    simp [h]
  · rw [decodeWord_of_classE h, decodeClassE_eq_unknown_iff]
    simp [h]
  · rw [decodeWord_of_classF h, decodeClassF_eq_unknown_iff]
    simp [h]
  · refine iff_of_false (decodeWord_ne_unknown_of_unshared h) ?_
    rintro (⟨hc, -⟩ | ⟨hc, -⟩ | ⟨hc, -⟩ | ⟨hc, -⟩) <;> exact h (by rw [hc]; decide)

end Sys2Proof
end

section
/-!
SUPPORT. The cycle around an instruction (R80): the fault a cycle raises, its end when it raises none, the
timers and MODE there; O7, O8, O33, O34, O36, O38, O39.
-/

namespace Sys2Proof.Machine

section Cycle

variable {s t u : State} {i j : Instr}

/-- A state executes one instruction at most: the fetch and the decoding are functions. -/
theorem ExecutesInstr.unique (hi : ExecutesInstr s i) (hj : ExecutesInstr s j) : i = j := by
  obtain ⟨-, op, hop, rfl⟩ := hi
  obtain ⟨-, op', hop', rfl⟩ := hj
  rw [Option.some.inj (hop.symm.trans hop')]

theorem ExecutesInstr.step_eq (h : ExecutesInstr s i) (hu : exec i s.latchKeys = .next u) :
    step s = .next (s.endCycle i u) := by
  obtain ⟨hf, op, hop, rfl⟩ := h
  exact step_of_exec s hf hop hu

/-- The decoder on the two bytes at pc names the instruction the cycle executes (R41, R82, R83). -/
theorem executesInstr_of_decode (hf : s.flt = none) (hpc : s.pc.toNat ≤ 0xFFE)
    (hd : decode [Memory.read s.mem s.pc.toNat, Memory.read s.mem (s.pc.toNat + 1)] = .ok (i, [])) :
    ExecutesInstr s i :=
  ⟨hf, _, State.fetchOpcode_of_pc_le hpc, congrArg Prod.fst (Except.ok.inj hd)⟩

/-- A running core either cannot fetch or executes an instruction, which answers (R82, R84). -/
theorem fetch_none_or_executes (hf : s.flt = none) :
    s.fetchOpcode = none ∨ ∃ i u, ExecutesInstr s i ∧ exec i s.latchKeys = .next u := by
  obtain hop | ⟨op, hop⟩ := s.fetchOpcode.eq_none_or_eq_some
  · exact .inl hop
  · obtain ⟨u, hu⟩ := exec_answers (decodeWord op) s.latchKeys
    exact .inr ⟨decodeWord op, u, ⟨hf, op, hop, rfl⟩, hu⟩

/-- A cycle that raises no fault reached Execute, and ends by settling MODE, ticking and taking new inputs
(R80, R89, R90). -/
theorem step_completed (hf : s.flt = none) (h : step s = .next t) (ht : t.flt = none) :
    ∃ i u, ExecutesInstr s i ∧ exec i s.latchKeys = .next u ∧
      t = ((u.settleMode i).tick).nextInputs := by
  obtain hop | ⟨i, u, hi, hu⟩ := fetch_none_or_executes hf
  · obtain rfl := next_unique h (step_of_fetch_none s hf hop)
    cases ht
  · obtain rfl := next_unique h (hi.step_eq hu)
    rw [State.endCycle_flt] at ht
    exact ⟨i, u, hi, hu, s.endCycle_of_none u i ht⟩

end Cycle

section Faults

variable {s u : State} {i : Instr}

theorem faultCause_of_fetch_none (hop : s.fetchOpcode = none) : faultCause s = some .pcBounds := by
  rw [faultCause, hop]

/-- The MemBounds condition of a block of at least one byte, by its last address (R197). -/
theorem blockOutside_iff (base len : Nat) : 0xFFF < base + len ↔ inMemory base (len + 1) = false := by
  rw [inMemory_eq_false]
  omega

/-- The MemBounds condition of DRW, whose block may be empty (R197). -/
theorem drawOutside_iff (base len : Nat) :
    0 < len ∧ 0xFFF < base + len - 1 ↔ inMemory base len = false := by
  rw [inMemory_eq_false]
  omega

/-- The conditions of R190 are the checks the instructions make: the cause they name is the fault that the
executed instruction leaves latched. -/
theorem ExecutesInstr.faultCause_eq (h : ExecutesInstr s i) (hu : exec i s.latchKeys = .next u) :
    faultCause s = u.flt := by
  obtain ⟨hf, op, hop, rfl⟩ := h
  rw [faultCause, hop]
  dsimp only
  generalize decodeWord op = i at hu ⊢
  cases i with
  | ret =>
    obtain ⟨h0, rfl⟩ | ⟨h0, rfl⟩ := execRet_cases hu
    · exact if_pos h0
    · exact (if_neg h0).trans hf.symm
  | call _ =>
    obtain ⟨h16, rfl⟩ | ⟨h16, rfl⟩ := execCall_cases hu
    · exact if_pos h16
    · exact (if_neg (Nat.ne_of_lt h16)).trans hf.symm
  | drwVxVyN _ _ n =>
    obtain ⟨hb, rfl⟩ | ⟨hb, rfl⟩ := execDrwVxVyN_cases hu
    · exact if_pos ((drawOutside_iff _ _).2 hb)
    · exact (if_neg (mt (drawOutside_iff _ _).1 (ne_false_of_eq_true hb))).trans hf.symm
  | ldBVx _ =>
    obtain ⟨hb, rfl⟩ | ⟨hb, rfl⟩ := execLdBVx_cases hu
    · exact if_pos ((blockOutside_iff _ _).2 hb)
    · exact (if_neg (mt (blockOutside_iff _ _).1 (ne_false_of_eq_true hb))).trans hf.symm
  | ldMemVx _ =>
    obtain ⟨hb, rfl⟩ | ⟨hb, rfl⟩ := execLdMemVx_cases hu
    · exact if_pos ((blockOutside_iff _ _).2 hb)
    · exact (if_neg (mt (blockOutside_iff _ _).1 (ne_false_of_eq_true hb))).trans hf.symm
  | ldVxMem _ =>
    obtain ⟨hb, rfl⟩ | ⟨hb, rfl⟩ := execLdVxMem_cases hu
    · exact if_pos ((blockOutside_iff _ _).2 hb)
    · exact (if_neg (mt (blockOutside_iff _ _).1 (ne_false_of_eq_true hb))).trans hf.symm
  | ldVxK _ => exact hf.symm.trans (exec_ldVxK_flt hu).symm
  | _ =>
    obtain rfl := Host.Outcome.next.inj hu
    exact hf.symm

end Faults

/-- Settles O36: a cycle that cannot fetch raises PcBounds, and any other ends with the fault its instruction
raised, the one `faultCause` names. -/
theorem faultsArePreciseAndExact : Obligations.FaultsArePreciseAndExact := by
  intro s hf
  obtain hop | ⟨i, u, hi, hu⟩ := fetch_none_or_executes hf
  · rw [faultCause_of_fetch_none hop, step_of_fetch_none s hf hop]
    exact ⟨fun f e => Option.some.inj e ▸ rfl, nofun⟩
  · rw [hi.faultCause_eq hu, hi.step_eq hu]
    exact ⟨fun f hfu => congrArg _ (s.endCycle_of_some u i f hfu),
      fun hfu => ⟨_, rfl, (s.endCycle_flt i u).trans hfu⟩⟩

/-- Settles O34. -/
theorem stoppedCoreIgnoresStep : Obligations.StoppedCoreIgnoresStep :=
  fun s _ => step_of_stopped s

/-- Settles O33: the decoder on the fetched bytes gives the instruction of the cycle, whose end depends on the
fault it left. -/
theorem stepRunsDecoded : Obligations.StepRunsDecoded := by
  intro s u i hf hpc hd hu
  have hstep : step s = .next (s.endCycle i u) := (executesInstr_of_decode hf hpc hd).step_eq hu
  refine ⟨fun f hfu => ?_, fun hfu => ?_⟩
  · rw [hstep, s.endCycle_of_some u i f hfu]
    rfl
  · rw [hstep, s.endCycle_of_none u i hfu]
    cases i with
    | ldVxK _ => rfl
    | _ => rfl

section Timers

/-- A tick in plain arithmetic: one lower, resting at 0 (R89). -/
theorem toNat_tickTimer (a : Byte) : (tickTimer a).toNat = a.toNat - 1 := by
  unfold tickTimer
  split <;> bv_omega

variable {s u : State} {i : Instr}

theorem exec_dt_of_ne (h : exec i s = .next u) (hi : ∀ x, i ≠ .ldDtVx x) : u.dt = s.dt := by
  obtain ⟨-, -, -, hdt, -⟩ := onlyNamedInstructionsWrite i s u h
  exact by_contra fun e => (hdt e).elim hi

theorem exec_st_of_ne (h : exec i s = .next u) (hi : ∀ x, i ≠ .ldStVx x) : u.st = s.st := by
  obtain ⟨-, -, -, -, hst, -⟩ := onlyNamedInstructionsWrite i s u h
  exact by_contra fun e => (hst e).elim hi

end Timers

/-- Settles O38: the executed instruction is the only one the hypotheses can speak of, and the tick comes after
its write. -/
theorem timersTickEveryCycle : Obligations.TimersTickEveryCycle := by
  intro s t hf h ht
  obtain ⟨i, u, hi, hu, rfl⟩ := step_completed hf h ht
  simp only [State.nextInputs_dt, State.nextInputs_st, State.tick_dt, State.tick_st, State.settleMode_dt,
    State.settleMode_st, toNat_tickTimer]
  refine ⟨fun hn => ?_, fun x hx => ?_, fun hn => ?_, fun x hx => ?_⟩
  · rw [exec_dt_of_ne hu fun x e => hn x (e ▸ hi)]
    rfl
  · obtain rfl := hi.unique hx
    obtain rfl := Host.Outcome.next.inj hu
    rfl
  · rw [exec_st_of_ne hu fun x e => hn x (e ▸ hi)]
    rfl
  · obtain rfl := hi.unique hx
    obtain rfl := Host.Outcome.next.inj hu
    rfl

/-- Settles O39: only `LD Vx,K` leaves AwaitingKey, and it does so exactly with no least key. -/
theorem modeAtEndOfCycle : Obligations.ModeAtEndOfCycle := by
  intro s t hf h ht
  obtain ⟨i, u, hi, hu, rfl⟩ := step_completed hf h ht
  constructor
  · intro hm
    obtain ⟨hmu, x, rfl⟩ := State.settleMode_awaitingKey u hm
    obtain ⟨hk, -⟩ | ⟨_, -, rfl⟩ := execLdVxK_cases hu
    · exact ⟨⟨x, hi⟩, (leastKey_eq_none _).1 hk⟩
    · cases hmu
  · rintro ⟨⟨x, hx⟩, hk⟩
    obtain rfl := hi.unique hx
    obtain rfl := next_unique hu (execLdVxK_of_none _ x ((leastKey_eq_none _).2 hk))
    rfl

/-- Moving pc on writes no other element (R87). -/
theorem State.frame_advance (s : State) (b : Word) : Frame {} s (s.advance b) where
  regs _ _ := rfl
  index _ := rfl
  sp _ := rfl
  stack _ := rfl
  delay _ := rfl
  sound _ := rfl
  screen _ := rfl
  mode _ := rfl
  cells _ _ := rfl
  keys := rfl
  fault := rfl
  inputs := ⟨rfl, rfl, rfl⟩

/-- Settles O7. -/
theorem unknownOnlyAdvances : Obligations.UnknownOnlyAdvances := by
  intro w s hpc
  refine ⟨s.advance 2, rfl, ?_, s.frame_advance 2⟩
  rw [State.advance_pc]
  bv_omega

/-- Settles O8: no row selects the word, so it decodes to UNKNOWN, which only advances. -/
theorem unknownCycleIsNoOp : Obligations.UnknownCycleIsNoOp := by
  intro s w hf hop hw
  have hi : ExecutesInstr s (.unknown w) := ⟨hf, w, hop, (isUnknownWord_iff w).1 hw⟩
  obtain ⟨hpc, -⟩ := (s.fetchOpcode_eq_some w).1 hop
  obtain ⟨u, hu, hpcu, -⟩ := unknownOnlyAdvances w s.latchKeys hpc
  obtain rfl := Host.Outcome.next.inj hu
  refine ⟨_, hi.step_eq hu, ?_⟩
  rw [s.endCycle_of_none s.latchKeys.nextInstr (.unknown w) hf]
  exact ⟨hpcu, rfl, toNat_tickTimer _, toNat_tickTimer _, rfl, hf, rfl, rfl, rfl, rfl, rfl, rfl⟩

end Sys2Proof.Machine
end

section
/-!
SUPPORT. Control flow (R100 to R107): what a jump, a call, a return and a skip write; O1 to O6.
-/

namespace Sys2Proof.Machine

section ControlFlow

variable {i : Instr} (s : State)

/-- An update of pc, SP and the stack writes no other element. -/
theorem State.frame_control {w : Writes} {pc : Word} {sp : Fin 17} {stack : Vector Word 16}
    (hsp : w.sp = false → sp = s.sp) (hstack : w.stack = false → stack = s.stack) :
    Frame w s { s with pc := pc, sp := sp, stack := stack } where
  regs _ _ := rfl
  index _ := rfl
  sp := hsp
  stack := hstack
  delay _ := rfl
  sound _ := rfl
  screen _ := rfl
  mode _ := rfl
  cells _ _ := rfl
  keys := rfl
  fault := rfl
  inputs := ⟨rfl, rfl, rfl⟩

theorem State.frame_jump (a : Word) : Frame {} s (s.jump a) :=
  s.frame_control (fun _ => rfl) (fun _ => rfl)

/-- The address field is zero-extended, so a jump to it reaches exactly nnn (R100, R102). -/
theorem toNat_zext16_addr (nnn : Addr12) : (zext16 nnn).toNat = nnn.toNat :=
  BitVec.toNat_setWidth_of_le (by decide)

variable {s}

/-- A skip from a fetchable pc does not wrap (R87). -/
theorem State.toNat_pc_skipIf (hpc : s.pc.toNat ≤ 0xFFE) (c : Bool) :
    (s.skipIf c).pc.toNat = s.pc.toNat + if c then 4 else 2 := by
  rw [State.skipIf_eq_advance, State.advance_pc]
  split <;> bv_omega

/-- A skip on equality: R104, R106. -/
theorem exec_skipIf_beq {a b : Byte} (hpc : s.pc.toNat ≤ 0xFFE)
    (h : exec i s = .next (s.skipIf (a == b))) :
    ∃ t, exec i s = .next t ∧ t.pc.toNat = s.pc.toNat + (if a = b then 4 else 2) ∧ Frame {} s t :=
  ⟨_, h, by simpa only [beq_iff_eq] using State.toNat_pc_skipIf hpc (a == b), s.frame_advance _⟩

/-- A skip on inequality: R105, R107. -/
theorem exec_skipIf_bne {a b : Byte} (hpc : s.pc.toNat ≤ 0xFFE)
    (h : exec i s = .next (s.skipIf (a != b))) :
    ∃ t, exec i s = .next t ∧ t.pc.toNat = s.pc.toNat + (if a = b then 2 else 4) ∧ Frame {} s t :=
  ⟨_, h, by simpa only [bne_iff_ne, ite_not] using State.toNat_pc_skipIf hpc (a != b), s.frame_advance _⟩

end ControlFlow

/-- Settles O2: with SP = j + 1 the entry that is popped is STACK[j], and its bound keeps the sum from
wrapping. -/
theorem returnPopsCaller : Obligations.ReturnPopsCaller := by
  refine ⟨fun x => (HasWord.ret x).decodeWord_eq, execRet_of_empty, fun s j hsp hentry => ?_⟩
  have hidx : s.sp.val - 1 = j.val := by omega
  refine ⟨_, execRet_of_active s (by omega), hidx, ?_, s.frame_control nofun (fun _ => rfl)⟩
  simp only [State.jump_pc, hidx]
  rw [Fin.getElem_fin] at hentry ⊢
  bv_omega

/-- Settles O3: CALL writes pc to the slot SP names, which is none when SP = 16. -/
theorem callPushesOwnAddress : Obligations.CallPushesOwnAddress := by
  intro nnn s
  refine ⟨(HasWord.call nnn).decodeWord_eq, execCall_of_full s nnn, fun hroom => ?_⟩
  have hslot (j : Fin 16) :
      (s.stack.set s.sp.val s.pc hroom)[j] = if j.val = s.sp.val then s.pc else s.stack[j] :=
    (Vector.getElem_set hroom j.isLt).trans (if_congr eq_comm rfl rfl)
  exact ⟨_, execCall_of_room s nnn hroom, rfl, toNat_zext16_addr nnn, hslot, s.frame_control nofun nofun⟩

/-- Settles O1. -/
theorem jumpSetsPc : Obligations.JumpSetsPc := fun nnn s =>
  ⟨(HasWord.jp nnn).decodeWord_eq, _, rfl, toNat_zext16_addr nnn, s.frame_jump _⟩

/-- Settles O4: the sum of a 12-bit and an 8-bit number does not wrap in sixteen bits. -/
theorem jumpOffsetAddsV0 : Obligations.JumpOffsetAddsV0 := by
  intro nnn s
  refine ⟨(HasWord.jpV0Nnn nnn).decodeWord_eq, _, rfl, ?_, s.frame_jump _⟩
  have hnnn := nnn.isLt
  have hv0 := (s.reg 0).isLt
  rw [State.jump_pc, State.opV0_eq_reg, BitVec.toNat_add, toNat_zext16_addr, BitVec.toNat_setWidth]
  omega

/-- Settles O5. -/
theorem skipsOnImmediate : Obligations.SkipsOnImmediate := fun x kk _ hpc =>
  ⟨(HasWord.seVxKk x kk).decodeWord_eq, (HasWord.sneVxKk x kk).decodeWord_eq,
    exec_skipIf_beq hpc rfl, exec_skipIf_bne hpc rfl⟩

/-- Settles O6: the words of the register skips have bits 3:0 free. -/
theorem skipsOnRegisters : Obligations.SkipsOnRegisters := fun x y _ hpc =>
  ⟨fun n => ⟨(HasWord.seVxVy x y n).decodeWord_eq, (HasWord.sneVxVy x y n).decodeWord_eq⟩,
    exec_skipIf_beq hpc rfl, exec_skipIf_bne hpc rfl⟩

end Sys2Proof.Machine
end

section
/-!
SUPPORT. Register loads, arithmetic, logic, shifts and the random byte (R120 to R131): what an instruction
that writes V[x], or VF and then V[x], changes and what it leaves; O9 to O17.
-/

namespace Sys2Proof.Machine

section Alu

variable {i : Instr} {s : State} {x : Nibble} {a : Byte}

/-- An update of the registers and pc writes no other element. -/
theorem State.frame_regs {w : Writes} {v : Vector Byte 16} {pc : Word}
    (hv : ∀ r, r ∉ w.regs → State.reg { s with v := v } r = s.reg r) :
    Frame w s { s with v := v, pc := pc } where
  regs := hv
  index _ := rfl
  sp _ := rfl
  stack _ := rfl
  delay _ := rfl
  sound _ := rfl
  screen _ := rfl
  mode _ := rfl
  cells _ _ := rfl
  keys := rfl
  fault := rfl
  inputs := ⟨rfl, rfl, rfl⟩

/-- The advance from a fetchable pc does not wrap (R87). -/
theorem State.toNat_pc_nextInstr (hpc : s.pc.toNat ≤ 0xFFE) : s.nextInstr.pc.toNat = s.pc.toNat + 2 := by
  rw [State.nextInstr_eq_advance, State.advance_pc]
  bv_omega

/-- An instruction that writes one register and no flag: V[x] holds the result, whose property is `P`. -/
theorem exec_setReg (hpc : s.pc.toNat ≤ 0xFFE) (h : exec i s = .next (s.setReg x a).nextInstr)
    (P : Byte → Prop) (ha : P a) :
    ∃ t, exec i s = .next t ∧ P (t.reg x) ∧ t.pc.toNat = s.pc.toNat + 2 ∧ Frame { regs := [x] } s t := by
  refine ⟨_, h, ?_, State.toNat_pc_nextInstr (s := s.setReg x a) hpc, State.frame_regs fun r hr => ?_⟩
  · simpa using ha
  · exact s.reg_setReg_of_ne a (List.ne_of_not_mem_cons hr)

/-- An instruction that writes one register and no flag, with the result given bit by bit. -/
theorem exec_setReg_bits {bits : Nat → Bool} (hpc : s.pc.toNat ≤ 0xFFE)
    (h : exec i s = .next (s.setReg x a).nextInstr) (ha : ∀ j, a.getLsbD j = bits j) :
    ∃ t, exec i s = .next t ∧ (∀ j, (t.reg x).getLsbD j = bits j) ∧ t.pc.toNat = s.pc.toNat + 2 ∧
      Frame { regs := [x] } s t :=
  exec_setReg hpc h (fun c => ∀ j, c.getLsbD j = bits j) ha

/-- An instruction that writes a flag and a register: V[x] holds the result also when it is VF, and VF holds
the flag when it is not V[x] (R86). -/
theorem exec_setFlagThenReg {flag : Bool} {result flagValue : Nat} (hpc : s.pc.toNat ≤ 0xFFE)
    (h : exec i s = .next (s.setFlagThenReg flag x a).nextInstr)
    (ha : a.toNat = result) (hf : flag.toNat = flagValue) :
    ∃ t, exec i s = .next t ∧ (t.reg x).toNat = result ∧ (x ≠ 0xF → (t.reg 0xF).toNat = flagValue) ∧
      t.pc.toNat = s.pc.toNat + 2 ∧ Frame { regs := [x, 0xF] } s t := by
  refine ⟨_, h, ?_, fun hx => ?_, State.toNat_pc_nextInstr (s := s.setFlagThenReg flag x a) hpc,
    State.frame_regs fun r hr => ?_⟩
  · simpa using ha
  · have hfx : flagReg ≠ x := hx.symm
    simpa [hfx] using hf
  · obtain ⟨hrx, hrf⟩ : r ≠ x ∧ r ≠ flagReg := by simpa using hr
    exact (s.reg_setFlagThenReg flag x r a).trans (by rw [if_neg hrx, if_neg hrf])

end Alu

section Values

variable (a b : Byte)

/-- Subtraction modulo 256 borrows from 256 (R127, R129). -/
theorem Byte.toNat_sub : (a - b).toNat = (a.toNat + 256 - b.toNat) % 256 := by
  bv_omega

theorem toNat_carryFlag : (carryFlag a b).toNat = if 255 < a.toNat + b.toNat then 1 else 0 :=
  Bool.cond_decide _ _ _

theorem toNat_greaterFlag : (greaterFlag a b).toNat = if b.toNat < a.toNat then 1 else 0 :=
  Bool.cond_decide _ _ _

theorem toNat_shiftedOutRight : (shiftedOutRight a).toNat = a.toNat % 2 := by
  rw [shiftedOutRight, BitVec.getLsbD, Nat.toNat_testBit, Nat.pow_zero, Nat.div_one]

/-- A shift to the left by one doubles modulo 256 (R130). -/
theorem Byte.toNat_shiftLeft_one : (a <<< 1).toNat = a.toNat * 2 % 256 := by
  rw [BitVec.toNat_shiftLeft, Nat.shiftLeft_eq]

/-- The top bit of a byte is its quotient by 128 (R130). -/
theorem toNat_shiftedOutLeft : (shiftedOutLeft a).toNat = a.toNat / 128 := by
  have ha := a.isLt
  rw [shiftedOutLeft, BitVec.getLsbD, Nat.toNat_testBit]
  omega

end Values

/-- Settles O12: both values are computed from the operands as they stood before either write. -/
theorem addRegistersCarry : Obligations.AddRegistersCarry := fun x y s hpc =>
  ⟨(HasWord.addVxVy x y).decodeWord_eq,
    exec_setFlagThenReg hpc rfl (BitVec.toNat_add _ _) (toNat_carryFlag (s.reg x) (s.reg y))⟩

/-- Settles O13. -/
theorem subtractStrictlyGreaterFlag : Obligations.SubtractStrictlyGreaterFlag := fun x y s hpc =>
  ⟨(HasWord.subVxVy x y).decodeWord_eq,
    exec_setFlagThenReg hpc rfl (Byte.toNat_sub _ _) (toNat_greaterFlag (s.reg x) (s.reg y))⟩

/-- Settles O14: the operands of O13 change places, in the flag too. -/
theorem reverseSubtractStrictlyGreaterFlag : Obligations.ReverseSubtractStrictlyGreaterFlag := fun x y s hpc =>
  ⟨(HasWord.subnVxVy x y).decodeWord_eq,
    exec_setFlagThenReg hpc rfl (Byte.toNat_sub _ _) (toNat_greaterFlag (s.reg y) (s.reg x))⟩

/-- Settles O15: the words of the shift have the y field free. -/
theorem shiftRightHalves : Obligations.ShiftRightHalves := fun x s hpc =>
  ⟨fun y => (HasWord.shrVx x y).decodeWord_eq,
    exec_setFlagThenReg hpc rfl (BitVec.toNat_ushiftRight _ 1) (toNat_shiftedOutRight (s.reg x))⟩

/-- Settles O16: the words of the shift have the y field free. -/
theorem shiftLeftDoubles : Obligations.ShiftLeftDoubles := fun x s hpc =>
  ⟨fun y => (HasWord.shlVx x y).decodeWord_eq,
    exec_setFlagThenReg hpc rfl (Byte.toNat_shiftLeft_one _) (toNat_shiftedOutLeft (s.reg x))⟩

/-- Settles O9: neither load writes a flag. -/
theorem loadImmediateAndCopy : Obligations.LoadImmediateAndCopy := fun x y kk s hpc =>
  ⟨(HasWord.ldVxKk x kk).decodeWord_eq, (HasWord.ldVxVy x y).decodeWord_eq,
    exec_setReg hpc rfl (· = kk) rfl, exec_setReg hpc rfl (· = s.reg y) rfl⟩

/-- Settles O10: byte addition is addition modulo 256, and no flag is written. -/
theorem addImmediateWraps : Obligations.AddImmediateWraps := fun x kk _ hpc =>
  ⟨(HasWord.addVxKk x kk).decodeWord_eq, exec_setReg hpc rfl (·.toNat = _) (BitVec.toNat_add _ _)⟩

/-- Settles O11: the three differ in the Boolean operation alone. -/
theorem logicBitByBit : Obligations.LogicBitByBit := fun x y _ hpc =>
  ⟨(HasWord.orVxVy x y).decodeWord_eq, (HasWord.andVxVy x y).decodeWord_eq, (HasWord.xorVxVy x y).decodeWord_eq,
    exec_setReg_bits hpc rfl (fun _ => BitVec.getLsbD_or),
    exec_setReg_bits hpc rfl (fun _ => BitVec.getLsbD_and),
    exec_setReg_bits hpc rfl (fun _ => BitVec.getLsbD_xor)⟩

/-- Settles O17: the byte on the port is whatever the state holds there. -/
theorem randomByteMasked : Obligations.RandomByteMasked := fun x kk _ hpc =>
  ⟨(HasWord.rndVxKk x kk).decodeWord_eq,
    exec_setReg_bits hpc rfl (fun _ => BitVec.getLsbD_and)⟩

end Sys2Proof.Machine
end

section
/-!
SUPPORT. The index register and the memory transfers (R140 to R145): what an instruction that writes I, and
what a block store and a block load, change and what they leave; O18 to O23.
-/

namespace Sys2Proof.Machine

section Index

variable {i : Instr} {s : State} {a : Word}

/-- An update of I and pc writes no other element. -/
theorem State.frame_index (s : State) (a pc : Word) :
    Frame { index := true } s { s with i := a, pc := pc } where
  regs _ _ := rfl
  index := nofun
  sp _ := rfl
  stack _ := rfl
  delay _ := rfl
  sound _ := rfl
  screen _ := rfl
  mode _ := rfl
  cells _ _ := rfl
  keys := rfl
  fault := rfl
  inputs := ⟨rfl, rfl, rfl⟩

/-- An instruction that writes I alone: R140 to R142. -/
theorem exec_setIndex {value : Nat} (hpc : s.pc.toNat ≤ 0xFFE)
    (h : exec i s = .next (State.nextInstr { s with i := a })) (ha : a.toNat = value) :
    ∃ t, exec i s = .next t ∧ t.i.toNat = value ∧ t.pc.toNat = s.pc.toNat + 2 ∧
      Frame { index := true } s t :=
  ⟨_, h, ha, State.toNat_pc_nextInstr (s := { s with i := a }) hpc, s.frame_index a _⟩

end Index

section Transfers

variable {s : State} {base len a : Nat} {x r : Nibble}

/-- A block of `len + 1` bytes lies in memory when its last address does (R43). -/
theorem inMemory_of_last_le (h : base + len ≤ 0xFFF) : inMemory base (len + 1) = true :=
  (inMemory_iff _ _).2 (.inr (Nat.succ_le_succ h))

theorem mem_cellsFrom : a ∈ cellsFrom base len ↔ base ≤ a ∧ a < base + len := by
  simp only [cellsFrom, List.mem_map, List.mem_range]
  constructor
  · rintro ⟨j, hj, rfl⟩
    omega
  · rintro ⟨hlo, hhi⟩
    exact ⟨a - base, by omega, by omega⟩

theorem mem_regsTo : r ∈ regsTo x ↔ r.toNat ≤ x.toNat := by
  simp only [regsTo, List.mem_map, List.mem_range, Nat.lt_succ_iff]
  constructor
  · rintro ⟨j, hj, rfl⟩
    exact (Nat.mod_le j _).trans hj
  · exact fun h => ⟨r.toNat, h, BitVec.eq_of_toNat_eq (Nat.mod_eq_of_lt r.isLt)⟩

/-- A block store writes no element but the cells of the block, and pc (R144). -/
theorem State.frame_writeBytes (s : State) {bs : List Byte} (hlen : bs.length = len) (pc : Word) :
    Frame { cells := cellsFrom base len } s
      { s with mem := Memory.writeBytes s.mem base bs, pc := pc } where
  regs _ _ := rfl
  index _ := rfl
  sp _ := rfl
  stack _ := rfl
  delay _ := rfl
  sound _ := rfl
  screen _ := rfl
  mode _ := rfl
  cells a ha := by
    rw [mem_cellsFrom] at ha
    exact Memory.read_writeBytes_outside bs s.mem base a (by omega)
  keys := rfl
  fault := rfl
  inputs := ⟨rfl, rfl, rfl⟩

theorem length_bcdDigits (b : Byte) : (bcdDigits b).length = 3 := rfl

/-- The decimal digits of a byte in plain arithmetic: no division or remainder of bytes wraps (R143). -/
theorem map_toNat_bcdDigits (b : Byte) :
    (bcdDigits b).map BitVec.toNat = [b.toNat / 100, b.toNat / 10 % 10, b.toNat % 10] := by
  simp [bcdDigits]

/-- The store of R143: the cells from the base on read as the hundreds, tens and ones. -/
theorem Memory.toNat_read_writeBytes_bcdDigits {m : List Host.Cell} (b : Byte) (hm : Memory.wf m)
    (hb : base + 2 ≤ 0xFFF) (j : Fin 3) :
    (Memory.read (Memory.writeBytes m base (bcdDigits b)) (base + j)).toNat =
      [b.toNat / 100, b.toNat / 10 % 10, b.toNat % 10][j] := by
  have hroom : base + (bcdDigits b).length ≤ Config.memSize := Nat.succ_le_succ hb
  have hj : j.val < ((bcdDigits b).map BitVec.toNat).length := j.isLt
  rw [Memory.read_writeBytes_inside (bcdDigits b) m base j j.isLt hroom hm]
  exact (List.getElem_map BitVec.toNat).symm.trans (List.getElem_of_eq (map_toNat_bcdDigits b) hj)

/-- The block load of R145: V[r] becomes the byte at I + r for every register up to x. -/
theorem State.reg_setRegsFrom0_readBytes (h : r.toNat ≤ x.toNat) :
    (s.setRegsFrom0 (Memory.readBytes s.mem base (x.toNat + 1))).reg r =
      Memory.read s.mem (base + r.toNat) := by
  have hr : r.toNat < (Memory.readBytes s.mem base (x.toNat + 1)).length := by
    rw [Memory.length_readBytes]
    omega
  rw [State.reg_setRegsFrom0, List.getD_eq_getElem _ _ hr, Memory.getElem_readBytes]

/-- A block load keeps every register above x (R145). -/
theorem State.reg_setRegsFrom0_of_length_le {bs : List Byte} (h : bs.length ≤ r.toNat) :
    (s.setRegsFrom0 bs).reg r = s.reg r := by
  rw [State.reg_setRegsFrom0, List.getD_eq_default _ _ h]

end Transfers

/-- Settles O21: cell I + j reads as digit j. -/
theorem bcdStoresDigits : Obligations.BcdStoresDigits := by
  intro x s hpc hm
  refine ⟨(HasWord.ldBVx x).decodeWord_eq,
    fun hout => execLdBVx_of_outside s x ((blockOutside_iff _ 2).1 hout), fun hin => ?_⟩
  have hdigit (j : Fin 3) := Memory.toNat_read_writeBytes_bcdDigits (s.reg x) hm hin j
  exact ⟨_, execLdBVx_of_inside s x (inMemory_of_last_le hin), hdigit 0, hdigit 1, hdigit 2,
    State.toNat_pc_nextInstr (s := s) hpc, s.frame_writeBytes (length_bcdDigits (s.reg x)) _⟩

/-- Settles O22. -/
theorem blockStoreCopiesRegisters : Obligations.BlockStoreCopiesRegisters := fun x s hpc hm =>
  ⟨(HasWord.ldMemVx x).decodeWord_eq,
    fun hout => execLdMemVx_of_outside s x ((blockOutside_iff _ _).1 hout),
    fun hin => ⟨_, execLdMemVx_of_inside s x (inMemory_of_last_le hin),
      fun _ hr => Memory.read_writeBytes_regsUpTo hm hin hr,
      State.toNat_pc_nextInstr (s := s) hpc, s.frame_writeBytes (s.length_regsUpTo x) _⟩⟩

/-- Settles O23: the block has a byte for every register up to x and none for those above. -/
theorem blockLoadCopiesMemory : Obligations.BlockLoadCopiesMemory := by
  intro x s hpc
  refine ⟨(HasWord.ldVxMem x).decodeWord_eq,
    fun hout => execLdVxMem_of_outside s x ((blockOutside_iff _ _).1 hout), fun hin => ?_⟩
  refine ⟨_, execLdVxMem_of_inside s x (inMemory_of_last_le hin),
    fun _ hr => State.reg_setRegsFrom0_readBytes hr, State.toNat_pc_nextInstr (s := s) hpc,
    State.frame_regs fun r hr => State.reg_setRegsFrom0_of_length_le ?_⟩
  rw [Memory.length_readBytes]
  exact Nat.lt_of_not_le (mt mem_regsTo.2 hr)

/-- Settles O18: the address field is zero-extended. -/
theorem loadIndex : Obligations.LoadIndex := fun nnn _ hpc =>
  ⟨(HasWord.ldINnn nnn).decodeWord_eq, exec_setIndex hpc rfl (toNat_zext16_addr nnn)⟩

/-- Settles O19: the register is zero-extended, and sixteen-bit addition is addition modulo 65536. -/
theorem addIndexWraps : Obligations.AddIndexWraps := by
  intro x s hpc
  refine ⟨(HasWord.addIVx x).decodeWord_eq, exec_setIndex hpc rfl ?_⟩
  rw [State.opA_eq_reg, BitVec.toNat_add, BitVec.toNat_setWidth_of_le (by decide)]

/-- Settles O20: the low digit is the remainder modulo 16. -/
theorem fontAddressOfLowDigit : Obligations.FontAddressOfLowDigit := by
  intro x s hpc
  refine ⟨(HasWord.ldFVx x).decodeWord_eq, exec_setIndex hpc rfl ?_⟩
  rw [State.opA_eq_reg, toNat_glyphAddr, toNat_lowDigit]

end Sys2Proof.Machine
end

section
/-!
SUPPORT. Graphics (R160 to R165): the pixels a sprite lights, in the rule's own coordinates, and what CLS and
DRW change and what they leave; O24 to O26.
-/

namespace Sys2Proof.Machine

section Pixels

variable {fb fb' : Screen} {a b bits : Byte} {bs : List Byte} {m : List Host.Cell} {base : Nat} {n : Nibble}
  {row : Fin 32} {c : Fin 64}

/-- A framebuffer is its pixels (R19). -/
theorem Screen.ext_pixel (h : ∀ r c, pixel fb r c = pixel fb' r c) : fb = fb' :=
  Vector.ext fun r hr => Vector.ext fun c hc => h ⟨r, hr⟩ ⟨c, hc⟩

/-- The lit columns of a sprite row, bit 7 leftmost (R163, R164). -/
theorem rowLit_iff : rowLit a bits c = true ↔
    ∃ k, k < 8 ∧ bits.getLsbD (7 - k) = true ∧ c.val = (a.toNat + k) % 64 := by
  have hcol (k : Nat) (hk : k < 8) : c.val = (a.toNat + k) % 64 ↔ (c.val + 256 - a.toNat) % 64 = k :=
    Fin.ext_iff.symm.trans (eq_spriteCol_iff a c k hk)
  simp only [rowLit, Bool.and_eq_true, decide_eq_true_eq]
  constructor
  · rintro ⟨hk, hbit⟩
    exact ⟨_, hk, hbit, (hcol _ hk).2 rfl⟩
  · rintro ⟨k, hk, hbit, hc⟩
    rw [(hcol k hk).1 hc]
    exact ⟨hk, hbit⟩

/-- A sprite drawn from its row 0 on. -/
theorem pixel_drawRows_zero (h : bs.length ≤ 32) :
    pixel (drawRows fb a b 0 bs) row c = (pixel fb row c ^^ rowsLit a b 0 bs row c) :=
  pixel_drawRows bs fb a b 0 row c (by rwa [Nat.zero_add])

/-- Sprite row j falls on row `(b + j) mod 32`, and at most 32 sprite rows fall on different rows (R164). -/
theorem rowsLit_iff (h : bs.length ≤ 32) : rowsLit a b 0 bs row c = true ↔
    ∃ j, ∃ hj : j < bs.length, rowLit a bs[j] c = true ∧ row.val = (b.toNat + j) % 32 := by
  have hrow (j : Nat) (hj : j < 32) : row.val = (b.toNat + j) % 32 ↔ (row.val + 320 - b.toNat) % 32 = j := by
    have := b.isLt
    omega
  rw [rowsLit, Nat.sub_zero]
  constructor
  · split
    next bits hbits =>
      obtain ⟨hj, rfl⟩ := List.getElem?_eq_some_iff.1 hbits
      exact fun hlit => ⟨_, hj, hlit, (hrow _ (hj.trans_le h)).2 rfl⟩
    next => nofun
  · rintro ⟨j, hj, hlit, hr⟩
    rw [(hrow j (hj.trans_le h)).1 hr, List.getElem?_eq_getElem hj]
    exact hlit

/-- A sprite has at most 15 rows, so no two of them fall on one row of the screen. -/
theorem length_sprite_le : (Memory.readBytes m base n.toNat).length ≤ 32 := by
  rw [Memory.length_readBytes]
  exact n.toNat_lt_sixteen.le.trans (by decide)

/-- The pixels that change are those under a lit bit of the sprite in memory (R161). -/
theorem pixel_drawRows_sprite_ne_iff :
    pixel (drawRows fb a b 0 (Memory.readBytes m base n.toNat)) row c ≠ pixel fb row c ↔
      ∃ j k, j < n.toNat ∧ k < 8 ∧ (Memory.read m (base + j)).getLsbD (7 - k) = true ∧
        row.val = (b.toNat + j) % 32 ∧ c.val = (a.toNat + k) % 64 := by
  have hxor (p q : Bool) : (p ^^ q) ≠ p ↔ q = true := by cases p <;> simp
  rw [pixel_drawRows_zero length_sprite_le, hxor, rowsLit_iff length_sprite_le]
  simp only [Memory.length_readBytes, Memory.getElem_readBytes, rowLit_iff]
  constructor
  · rintro ⟨j, hj, ⟨k, hk, hbit, hc⟩, hr⟩
    exact ⟨j, k, hj, hk, hbit, hr, hc⟩
  · rintro ⟨j, k, hj, hk, hbit, hr, hc⟩
    exact ⟨j, hj, ⟨k, hk, hbit, hc⟩, hr⟩

/-- Drawing is an involution: the second draw toggles the same pixels back (R165 e). -/
theorem drawRows_drawRows (h : bs.length ≤ 32) : drawRows (drawRows fb a b 0 bs) a b 0 bs = fb := by
  refine Screen.ext_pixel fun r c => ?_
  rw [pixel_drawRows_zero h, pixel_drawRows_zero h, Bool.xor_assoc, Bool.xor_self, Bool.xor_false]

end Pixels

section Draw

variable {s : State} {x y n r : Nibble}

/-- An update of the registers, the framebuffer and pc writes no other element. -/
theorem State.frame_screen {w : Writes} {v : Vector Byte 16} {fb : Screen} {pc : Word}
    (hv : ∀ r, r ∉ w.regs → State.reg { s with v := v } r = s.reg r) (hfb : w.screen = false → fb = s.fb) :
    Frame w s { s with v := v, fb := fb, pc := pc } where
  regs := hv
  index _ := rfl
  sp _ := rfl
  stack _ := rfl
  delay _ := rfl
  sound _ := rfl
  screen := hfb
  mode _ := rfl
  cells _ _ := rfl
  keys := rfl
  fault := rfl
  inputs := ⟨rfl, rfl, rfl⟩

/-- The state a draw from `s` completes in. -/
def State.drawn (s : State) (x y n : Nibble) : State :=
  State.advance { s.setReg flagReg 0 with
    fb := drawRows s.fb (s.reg x) (s.reg y) 0 (Memory.readBytes s.mem s.i.toNat n.toNat) } 2

theorem exec_drwVxVyN_of_inside (h : inMemory s.i.toNat n.toNat = true) :
    exec (.drwVxVyN x y n) s = .next (s.drawn x y n) :=
  execDrwVxVyN_of_inside s x y n h

/-- VF reads 0 after a draw, whether or not a lit pixel was turned off (R162). -/
theorem State.reg_flagReg_drawn : (s.drawn x y n).reg 0xF = 0 :=
  (s.reg_setReg flagReg flagReg 0).trans (if_pos rfl)

theorem State.reg_drawn_of_ne (h : r ≠ flagReg) : (s.drawn x y n).reg r = s.reg r :=
  s.reg_setReg_of_ne 0 h

/-- The second draw finds the sprite and both coordinates as the first one left them. -/
theorem State.fb_drawn_drawn (hx : x ≠ flagReg) (hy : y ≠ flagReg) :
    ((s.drawn x y n).drawn x y n).fb = s.fb := by
  change drawRows _ ((s.drawn x y n).reg x) ((s.drawn x y n).reg y) 0 _ = s.fb
  rw [reg_drawn_of_ne hx, reg_drawn_of_ne hy]
  exact drawRows_drawRows length_sprite_le

end Draw

/-- Settles O25: at most 15 sprite rows fall on different rows, so each lit bit toggles its pixel once. -/
theorem drawTogglesLitPixels : Obligations.DrawTogglesLitPixels := by
  intro x y n s hpc
  refine ⟨(HasWord.drwVxVyN x y n).decodeWord_eq,
    fun hout => execDrwVxVyN_of_outside s x y n ((drawOutside_iff _ _).1 hout), fun hin => ?_⟩
  have hmem : inMemory s.i.toNat n.toNat = true := by
    rw [inMemory_iff]
    simp only [Config.memSize]
    omega
  refine ⟨_, exec_drwVxVyN_of_inside hmem, State.reg_flagReg_drawn,
    fun _ _ => pixel_drawRows_sprite_ne_iff,
    State.toNat_pc_nextInstr (s := s) hpc, State.frame_screen (fun r hr => ?_) nofun⟩
  exact s.reg_setReg_of_ne 0 (List.ne_of_not_mem_cons hr)

/-- Settles O26: the first draw moves neither the sprite nor its place, and keeps it in memory. -/
theorem drawTwiceRestores : Obligations.DrawTwiceRestores := by
  intro x y n s hx hy hin
  have hmem : inMemory s.i.toNat n.toNat = true := (inMemory_iff _ _).2 (.inr hin)
  exact ⟨_, _, exec_drwVxVyN_of_inside hmem, exec_drwVxVyN_of_inside (s := s.drawn x y n) hmem,
    State.fb_drawn_drawn hx hy, State.reg_flagReg_drawn⟩

/-- Settles O24: the words of CLS have bits 11:8 free. -/
theorem clearScreenBlanks : Obligations.ClearScreenBlanks :=
  ⟨fun x => (HasWord.cls x).decodeWord_eq,
    fun s hpc => ⟨_, rfl, pixel_blankScreen, State.toNat_pc_nextInstr (s := s) hpc,
      State.frame_screen (fun _ _ => rfl) nofun⟩⟩

end Sys2Proof.Machine
end

section
/-!
SUPPORT. Keypad tests, the key wait and timer access (R170 to R175): what they change and what they leave, and
the end of the cycle around a timer access; O27 to O30.
-/

namespace Sys2Proof.Machine

section Keypad

variable {s : State} {i : Instr}

/-- A key's flag is the bit of K that the low digit of the operand names (R170). -/
theorem State.keyDown_lowDigit (s : State) (a : Byte) : s.keyDown (lowDigit a) = s.k.getLsbD (a.toNat % 16) := by
  rw [State.keyDown, toNat_lowDigit]

/-- A skip writes pc alone, whatever its condition. -/
theorem exec_skipIf {c : Bool} (hpc : s.pc.toNat ≤ 0xFFE) (h : exec i s = .next (s.skipIf c)) :
    ∃ t, exec i s = .next t ∧ t.pc.toNat = s.pc.toNat + (if c = true then 4 else 2) ∧ Frame {} s t :=
  ⟨_, h, State.toNat_pc_skipIf hpc c, s.frame_advance _⟩

/-- An update of the registers, MODE and pc writes no other element. -/
theorem State.frame_mode {w : Writes} {v : Vector Byte 16} {m : Mode} {pc : Word}
    (hv : ∀ r, r ∉ w.regs → State.reg { s with v := v } r = s.reg r) (hm : w.mode = false → m = s.mode) :
    Frame w s { s with v := v, mode := m, pc := pc } where
  regs := hv
  index _ := rfl
  sp _ := rfl
  stack _ := rfl
  delay _ := rfl
  sound _ := rfl
  screen _ := rfl
  mode := hm
  cells _ _ := rfl
  keys := rfl
  fault := rfl
  inputs := ⟨rfl, rfl, rfl⟩

end Keypad

/-- Settles O28: the search for the least key finds none exactly when K = 0. -/
theorem keyWaitTakesLeastKey : Obligations.KeyWaitTakesLeastKey := by
  intro x s hpc
  refine ⟨(HasWord.ldVxK x).decodeWord_eq, fun hk => ?_, fun hk => ?_⟩
  · exact ⟨_, execLdVxK_of_none s x ((leastKey_eq_none _).2 hk), rfl, rfl, State.frame_mode (fun _ _ => rfl) nofun⟩
  · obtain ⟨key, hkey⟩ := Option.ne_none_iff_exists'.1 (mt (leastKey_eq_none _).1 hk)
    have hreg : (s.setReg x key).reg x = key := (s.reg_setReg x x key).trans (if_pos rfl)
    obtain ⟨hlt, hdown, hleast⟩ := leastKey_eq_some _ _ hkey
    rw [← hreg] at hlt hdown hleast
    exact ⟨_, execLdVxK_of_some s x key hkey, rfl, State.toNat_pc_nextInstr (s := s) hpc, hlt, hdown, hleast,
      State.frame_mode (fun r hr => s.reg_setReg_of_ne key (List.ne_of_not_mem_cons hr)) nofun⟩

/-- Settles O27: the two tests skip on opposite values of one flag. -/
theorem keySkips : Obligations.KeySkips := by
  intro x s hpc
  refine ⟨(HasWord.skpVx x).decodeWord_eq, (HasWord.sknpVx x).decodeWord_eq, ?_, ?_⟩ <;>
    rw [← s.keyDown_lowDigit]
  · exact exec_skipIf hpc rfl
  · simpa only [Bool.not_eq_true', ← Bool.not_eq_true, ite_not] using
      exec_skipIf (i := .sknpVx x) (c := !s.keyDown (lowDigit (s.reg x))) hpc rfl

section TimerAccess

variable {s u : State} {i : Instr}

/-- An update of the timers and pc writes no other element. -/
theorem State.frame_timers {w : Writes} {dt st : Byte} {pc : Word}
    (hdt : w.delay = false → dt = s.dt) (hst : w.sound = false → st = s.st) :
    Frame w s { s with dt := dt, st := st, pc := pc } where
  regs _ _ := rfl
  index _ := rfl
  sp _ := rfl
  stack _ := rfl
  delay := hdt
  sound := hst
  screen _ := rfl
  mode _ := rfl
  cells _ _ := rfl
  keys := rfl
  fault := rfl
  inputs := ⟨rfl, rfl, rfl⟩

theorem ExecutesInstr.pc_le (h : ExecutesInstr s i) : s.pc.toNat ≤ 0xFFE := by
  obtain ⟨-, op, hop, -⟩ := h
  exact ((s.fetchOpcode_eq_some op).1 hop).1

/-- The cycle around an instruction that raises no fault keeps the registers and pc the instruction left, and
ticks the timers it left (R80, R89). -/
theorem ExecutesInstr.step_ticks (h : ExecutesInstr s i) (hu : exec i s.latchKeys = .next u)
    (hflt : u.flt = s.latchKeys.flt) :
    ∃ t, step s = .next t ∧ (∀ r, t.reg r = u.reg r) ∧ t.dt.toNat = u.dt.toNat - 1 ∧
      t.st.toNat = u.st.toNat - 1 ∧ t.pc = u.pc ∧ t.flt = none := by
  have hnone : u.flt = none := hflt.trans h.1
  refine ⟨_, h.step_eq hu, ?_⟩
  rw [s.endCycle_of_none u i hnone]
  simp [toNat_tickTimer, hnone]

end TimerAccess

/-- Settles O29. -/
theorem timerAccess : Obligations.TimerAccess := fun _ s hpc =>
  ⟨exec_setReg hpc rfl (· = s.dt) rfl,
    ⟨_, rfl, rfl, State.toNat_pc_nextInstr (s := s) hpc, State.frame_timers nofun (fun _ => rfl)⟩,
    ⟨_, rfl, rfl, State.toNat_pc_nextInstr (s := s) hpc, State.frame_timers (fun _ => rfl) nofun⟩⟩

/-- Settles O30: O29 on the state with the keys latched, followed by the end of the cycle. -/
theorem timerAccessCycle : Obligations.TimerAccessCycle := by
  intro x s
  refine ⟨(HasWord.ldVxDt x).decodeWord_eq, (HasWord.ldDtVx x).decodeWord_eq, (HasWord.ldStVx x).decodeWord_eq,
    fun h => ?_, fun h => ?_, fun h => ?_⟩ <;>
    obtain ⟨hread, hdelay, hsound⟩ := timerAccess x s.latchKeys h.pc_le
  · obtain ⟨u, hu, hx, hpc, hframe⟩ := hread
    obtain ⟨t, hstep, hreg, hdt, hst, hpct, hflt⟩ := h.step_ticks hu hframe.fault
    exact ⟨t, hstep, (hreg x).trans hx, fun r hr => (hreg r).trans (hframe.regs r (by simpa using hr)),
      hframe.delay rfl ▸ hdt, hframe.sound rfl ▸ hst, hpct ▸ hpc, hflt⟩
  · obtain ⟨u, hu, hx, hpc, hframe⟩ := hdelay
    obtain ⟨t, hstep, hreg, hdt, hst, hpct, hflt⟩ := h.step_ticks hu hframe.fault
    exact ⟨t, hstep, fun r => (hreg r).trans (hframe.regs r (by simp)), hx ▸ hdt, hframe.sound rfl ▸ hst,
      hpct ▸ hpc, hflt⟩
  · obtain ⟨u, hu, hx, hpc, hframe⟩ := hsound
    obtain ⟨t, hstep, hreg, hdt, hst, hpct, hflt⟩ := h.step_ticks hu hframe.fault
    exact ⟨t, hstep, fun r => (hreg r).trans (hframe.regs r (by simp)), hx ▸ hst, hframe.delay rfl ▸ hdt,
      hpct ▸ hpc, hflt⟩

end Sys2Proof.Machine
end

section
/-!
SUPPORT. That every cycle is answered (R194, R200), and what a run of cycles does to the timers (R205, R207);
O35, O37, O55.
-/

namespace Sys2Proof.Machine

/-- Settles O35. -/
theorem pcBoundsAtFetch : Obligations.PcBoundsAtFetch := by
  intro s hf hpc
  have hop : s.fetchOpcode = none := s.fetchOpcode_eq_none.2 hpc
  exact ⟨hop, step_of_fetch_none s hf hop⟩

/-- Settles O37: a stopped core stays, a failed fetch raises, and an executed instruction answers. -/
theorem cycleAlwaysAnswers : Obligations.CycleAlwaysAnswers := by
  intro s
  obtain hf | ⟨f, hf⟩ := s.flt.eq_none_or_eq_some
  · obtain hop | ⟨i, u, hi, hu⟩ := fetch_none_or_executes hf
    · exact ⟨_, step_of_fetch_none s hf hop⟩
    · exact ⟨_, hi.step_eq hu⟩
  · exact ⟨s, step_of_stopped s hf⟩

section Runs

variable {s t : State} {n : Nat}

theorem cycles_succ (h : step s = .next t) (n : Nat) : cycles (n + 1) s = cycles n t := by
  rw [cycles, h]

theorem cycles_answers (n : Nat) (s : State) : ∃ t, cycles n s = .next t := by
  induction n generalizing s with
  | zero => exact ⟨s, rfl⟩
  | succ n ih =>
    obtain ⟨u, hu⟩ := cycleAlwaysAnswers s
    rw [cycles_succ hu]
    exact ih u

/-- A fault stays latched (R94), so a cycle that ends with none began with none. -/
theorem flt_eq_none_of_step (h : step s = .next t) (ht : t.flt = none) : s.flt = none := by
  obtain hf | ⟨f, hf⟩ := s.flt.eq_none_or_eq_some
  · exact hf
  · obtain rfl := next_unique h (step_of_stopped s hf)
    exact ht

theorem flt_eq_none_of_cycles (h : cycles n s = .next t) (ht : t.flt = none) : s.flt = none := by
  induction n generalizing s with
  | zero =>
    obtain rfl := Host.Outcome.next.inj h
    exact ht
  | succ n ih =>
    obtain ⟨u, hu⟩ := cycleAlwaysAnswers s
    exact flt_eq_none_of_step hu (ih ((cycles_succ hu n).symm.trans h))

end Runs

/-- Every cycle that neither faults nor executes an instruction of the class `writes` takes one off `timer`,
which rests at 0. -/
def CountsDown (writes : Instr → Prop) (timer : State → Nat) : Prop :=
  ∀ s t : State, s.flt = none → step s = .next t → t.flt = none →
    (∀ i, ExecutesInstr s i → ¬ writes i) → timer t = timer s - 1

theorem countsDown_dt : CountsDown (fun i => ∃ x, i = .ldDtVx x) (·.dt.toNat) := by
  intro s t hf h ht hn
  obtain ⟨hdt, -⟩ := timersTickEveryCycle s t hf h ht
  exact hdt fun x hx => hn _ hx ⟨x, rfl⟩

theorem countsDown_st : CountsDown (fun i => ∃ x, i = .ldStVx x) (·.st.toNat) := by
  intro s t hf h ht hn
  obtain ⟨-, -, hst, -⟩ := timersTickEveryCycle s t hf h ht
  exact hst fun x hx => hn _ hx ⟨x, rfl⟩

/-- Over a run the cycles add up (R207); that no cycle of it faulted is read off its end. -/
theorem CountsDown.over_cycles {writes : Instr → Prop} {timer : State → Nat} (hc : CountsDown writes timer)
    {n : Nat} {s t : State} (h : cycles n s = .next t) (ht : t.flt = none) (ha : CyclesAvoid writes n s) :
    timer t = timer s - n := by
  induction n generalizing s with
  | zero =>
    obtain rfl := Host.Outcome.next.inj h
    rfl
  | succ n ih =>
    obtain ⟨hfirst, hrest⟩ := ha
    obtain ⟨u, hu⟩ := cycleAlwaysAnswers s
    rw [cycles_succ hu] at h
    have huf : u.flt = none := flt_eq_none_of_cycles h ht
    have hone : timer u = timer s - 1 := hc s u (flt_eq_none_of_step hu huf) hu huf hfirst
    have hmany : timer t = timer u - n := ih h (hrest u hu)
    omega

/-- Settles O55: each timer counts down in every cycle, hence over the run. -/
theorem timersCountCycles : Obligations.TimersCountCycles := by
  intro n s
  obtain ⟨t, h⟩ := cycles_answers n s
  exact ⟨t, h, countsDown_dt.over_cycles h, countsDown_st.over_cycles h⟩

end Sys2Proof.Machine
end

section
/-!
SUPPORT. What boot stores and what it leaves (R222), and that a refused ROM stops the core (R223); O44, O45.
-/

namespace Sys2Proof.Machine

section Images

variable {s : State} {font : Font} {rom : List Byte}

theorem State.bootWith_of_le (h : rom.length ≤ 3584) :
    s.bootWith font rom =
      { s with mem := Memory.writeBytes (Memory.writeBytes s.mem 0x050 font.toList) 0x200 rom } :=
  if_neg (Nat.not_lt.2 h)

theorem State.bootWith_of_lt (h : 3584 < rom.length) : s.bootWith font rom = s.raise .romTooLarge :=
  if_pos h

theorem font_inMemory (font : Font) : 0x050 + font.toList.length ≤ Config.memSize := by
  rw [Vector.length_toList]
  decide

/-- A cell outside both images keeps its content (R222). -/
theorem Memory.read_bootWith_outside (h : rom.length ≤ 3584) {a : Nat} (hfont : a < 0x050 ∨ 0x0A0 ≤ a)
    (hrom : a < 0x200 ∨ 0x200 + rom.length ≤ a) :
    Memory.read (s.bootWith font rom).mem a = Memory.read s.mem a := by
  rw [State.bootWith_of_le h, Memory.read_writeBytes_outside _ _ _ _ hrom]
  exact Memory.read_writeBytes_outside _ _ _ _ (by rwa [Vector.length_toList])

/-- The font stands at 0x050 (R47): it is written inside memory, and the ROM begins above it. -/
theorem Memory.read_bootWith_font (hm : Memory.wf s.mem) (h : rom.length ≤ 3584) {j : Nat} (hj : j < 80) :
    Memory.read (s.bootWith font rom).mem (0x050 + j) = font[j] := by
  rw [State.bootWith_of_le h, Memory.read_writeBytes_outside _ _ _ _ (by omega),
    Memory.read_writeBytes_inside _ _ _ _ (by simpa using hj) (font_inMemory font) hm]
  exact Vector.getElem_toList _

/-- The ROM stands at 0x200 (R222): its last byte lies at 0xFFF or below. -/
theorem Memory.read_bootWith_rom (hm : Memory.wf s.mem) (h : rom.length ≤ 3584) {j : Nat} (hj : j < rom.length) :
    Memory.read (s.bootWith font rom).mem (0x200 + j) = rom[j] := by
  have hfont : Memory.wf (Memory.writeBytes s.mem 0x050 font.toList) :=
    Memory.wf_writeBytes _ _ _ (.inl (font_inMemory font)) hm
  have hend : 0x200 + rom.length ≤ Config.memSize := by
    simp only [Config.memSize]
    omega
  rw [State.bootWith_of_le h]
  exact Memory.read_writeBytes_inside _ _ _ _ hj hend hfont

end Images

/-- Settles O44: the cells one by one, and the first fetch as a read of the first two ROM bytes. -/
theorem bootLoadsFontAndRom : Obligations.BootLoadsFontAndRom := by
  intro font rom h
  have hm : Memory.wf State.reset.mem := resetMeetsInvariant.memory
  refine ⟨fun j => Memory.read_bootWith_font hm h j.isLt, fun j => Memory.read_bootWith_rom hm h j.isLt,
    fun a hfont hrom => Memory.read_bootWith_outside h hfont hrom, ⟨_, State.bootWith_of_le h⟩, ?_⟩
  rintro b0 b1 rest rfl
  have hpc : (State.reset.bootWith font (b0 :: b1 :: rest)).pc.toNat = 0x200 := by
    rw [State.bootWith_pc]
    rfl
  have h0 := Memory.read_bootWith_rom (font := font) hm h (j := 0) (by simp)
  have h1 := Memory.read_bootWith_rom (font := font) hm h (j := 1) (by simp)
  rw [State.fetchOpcode_eq_some, hpc]
  exact ⟨by decide, congrArg₂ composeOpcode h0.symm h1.symm⟩

/-- A stopped core ignores any number of requests (R94). -/
theorem cycles_of_stopped {s : State} {f : Fault} (h : s.flt = some f) (n : Nat) : cycles n s = .next s := by
  induction n with
  | zero => rfl
  | succ n ih => rw [cycles_succ (step_of_stopped s h), ih]

/-- Settles O45: the refused boot raises a fault, and a fault stops the core. -/
theorem bootRejectsOversizeRom : Obligations.BootRejectsOversizeRom := by
  intro s font rom h
  rw [State.bootWith_of_lt h]
  exact ⟨rfl, cycles_of_stopped (s.raise_flt .romTooLarge)⟩

end Sys2Proof.Machine
end

section
/-!
SUPPORT. Words written out, each shown to be a word of its instruction (R63, R66); O32.
-/

namespace Sys2Proof.Machine

/-- Settles O32: each of the first twelve is its instruction's word at the operands named here, ignored bits
included (x of RET, n of SE, y of SHL), and the last selects no row. -/
theorem writtenOutWordsDecode : Obligations.WrittenOutWordsDecode :=
  ⟨(HasWord.cls 0x0).decodeWord_eq, (HasWord.ret 0xA).decodeWord_eq, (HasWord.call 0x210).decodeWord_eq,
    (HasWord.jpV0Nnn 0xFFF).decodeWord_eq, (HasWord.seVxVy 0x1 0x2 0x1).decodeWord_eq,
    (HasWord.ldVxKk 0xA 0x3C).decodeWord_eq, (HasWord.addVxVy 0x1 0x2).decodeWord_eq,
    (HasWord.shlVx 0x1 0x0).decodeWord_eq, (HasWord.drwVxVyN 0x1 0x2 0x5).decodeWord_eq,
    (HasWord.sknpVx 0x1).decodeWord_eq, (HasWord.ldVxK 0x3).decodeWord_eq,
    (HasWord.ldVxMem 0x2).decodeWord_eq, (isUnknownWord_iff 0x8ABD).1 (by decide)⟩

end Sys2Proof.Machine
end
